-- ==== Sys2Proof/Word.lean ====
section
/-! DEFINITION. The widths of the machine: bytes, 16-bit operands, XLEN = 32-bit integers (`00_scope.md` R6, R8). -/

namespace Sys2Proof

/-- A byte, 8 bits (R8). -/
abbrev Byte := BitVec 8

/-- A 16-bit operand: an immediate, a target or a literal length (R75). -/
abbrev Half := BitVec 16

/-- XLEN = STACK_CELL = 32 bits: a register's integer, a stack cell, the instruction pointer (R6, R30). -/
abbrev Word := BitVec 32

end Sys2Proof
end

