-- ==== Sys2Proof/Config.lean ====
section
/-! DEFINITION. The values `00_scope.md` R6 gives the implementation parameters, the embedder's configuration, and the free
values. The parameters that `92_eei_decisions.md` marks OPEN are arguments, together in Machine/Params.lean; what stands here
is their default (notes/assumptions/1.md to 7.md). The defaults of OPMAP, PARSE_INT and RENDER_INT stand in Decode.lean and
Machine/Text.lean. -/

namespace Sys2Proof.Config

/-- NREG, the number of registers (R6, R22). -/
abbrev nreg : Nat := 10

/-- MEM_SIZE, the bytes of the address space and the bound of every check (R6, R40). -/
abbrev memSize : Nat := 65536

/-- What an address that the memory list does not hold reads as (notes/assumptions/4.md). -/
abbrev unlisted : Byte := 0x00#8

/-- The default of MEM_FILL, the value of every address at or beyond the loaded image (R6, R41). -/
abbrev memFill : Byte := 0x00#8

/-- The default of STACK_DEPTH, the cells of the operand stack (R6, R36). -/
abbrev stackDepth : Nat := 1024

/-- The default of UNKNOWN_LIMIT, the unknown-opcode threshold, `none` when the counter is inactive (R6, R85; notes/assumptions/3.md). -/
def unknownLimit : Option Nat := some 20

/-- The draws of the random port: draw number `n` of a run is a value 0 to 65535 under no law (R14, R114). A FREE VALUE:
it has no body, so nothing can be proved of it but its range (notes/assumptions/8.md). -/
opaque draw : Nat → Half

/-- What runs on a fatal condition: the default of R6 (enter Faulted and stop), or an action of the embedder's (R207). -/
inductive ErrorHook where
  | enterFaulted
  | embedder
deriving DecidableEq, Repr

/-- The embedder's configuration before a run (R235): CUSTOM_OPS, the opcode bytes bound to handlers of its own (R86);
ERROR_HOOK (R207); whether the run should end at the address-space bound (`10_state.md` R35, U9); and TEXT_MAX, `none` when
texts are unbounded (R24, notes/assumptions/7.md). -/
structure Embedding where
  customOps  : List Byte
  errorHook  : ErrorHook
  runToBound : Bool
  textMax    : Option Nat
deriving DecidableEq, Repr

/-- The configuration this spec fixes: CUSTOM_OPS empty, the default hook, no run-to-bound mode, unbounded texts (R6, R24,
R35). -/
def Embedding.default : Embedding := ⟨[], .enterFaulted, false, none⟩

end Sys2Proof.Config
end

