-- ==== Sys2Proof/Machine/State.lean ====
section
/-! DEFINITION. The architectural state (`10_state.md` R20), the ways a step can stop, and the state after reset (R46). -/

namespace Sys2Proof.Machine

/-- A register's Value: an unsigned 32-bit integer, or a byte sequence of any length (R23, R24). -/
inductive Value where
  | int (v : Word)
  | text (t : List Byte)
deriving DecidableEq, Repr

/-- The run status (R42). -/
inductive Status where
  | running
  | halted
  | faulted
deriving DecidableEq, Repr

/-- The seven causes of `60_exceptions.md` R200. -/
inductive Cause where
  | indexOutOfBounds
  | typeMismatch
  | divisionByZero
  | stackOverflow
  | stackUnderflow
  | addressOutOfRange
  | unrecognizedOpcode
deriving DecidableEq, Repr

/-- The numeric code of a cause, 1 to 7 (R200). -/
def Cause.code : Cause → Nat
  | .indexOutOfBounds => 1
  | .typeMismatch => 2
  | .divisionByZero => 3
  | .stackOverflow => 4
  | .stackUnderflow => 5
  | .addressOutOfRange => 6
  | .unrecognizedOpcode => 7

/-- A raised condition: the cause and the `info` value R200 gives it. -/
structure Raise where
  cause : Cause
  info  : Nat
deriving DecidableEq, Repr

/-- The fault record of R203: the cause, the address of the faulting opcode, the info value. -/
structure FaultRecord where
  cause : Cause
  atPc  : Word
  info  : Nat
deriving DecidableEq, Repr

/-- An event on the output port (`00_scope.md` R13). -/
inductive Event where
  | outInt (v : Word)
  | outText (t : List Byte)
  | system (t : List Byte)
deriving DecidableEq, Repr

/-- The address space as (address, byte) pairs. In its canonical form (`Memory.wf`) the addresses rise strictly, stay
below MEM_SIZE, and no entry holds `Config.unlisted`, which is what an unlisted address reads as. -/
abbrev Memory := List Host.Cell

/-- The whole state of the block (`10_state.md` R20), the output trace recorded beside it (R13), and one field of the
model's own, `draws`. -/
structure State where
  /-- `x[0]` .. `x[9]` (R22). -/
  regs   : Vector Value Config.nreg
  /-- The Z flag (R27). -/
  z      : Bool
  /-- The instruction pointer (R30). -/
  pc     : Word
  /-- The address space (R40). -/
  mem    : Memory
  /-- The STACK_DEPTH cells of the operand stack (R36), 32 raw bits each (R37). -/
  stack  : List Word
  /-- The number of occupied cells, 0 to STACK_DEPTH (R36). -/
  sp     : Nat
  /-- The run status (R42). -/
  status : Status
  /-- The unknown-opcode counter (R43). -/
  unk    : Nat
  /-- The fault record (R44). -/
  fault  : Option FaultRecord
  /-- The output trace, oldest event first (R13; notes/assumptions/15.md). -/
  trace  : List Event
  /-- The model's own: how many draws the random port has supplied (R14; notes/assumptions/8.md). -/
  draws  : Nat
deriving DecidableEq, Repr

/-- Why the host's step stops. A raised condition of R200 is none of these: it is a next state (R203). -/
inductive Fault where
  /-- `step` raises it in status Halted, where "the engine has no step" (R35). Safe: the model stops where the hardware
  stops. -/
  | halted
  /-- `step` raises it in status Faulted, where "the engine has no step" (R35, R207). Safe: the model stops where the
  hardware stops. -/
  | faulted
deriving DecidableEq, Repr

/-- What the model declines. No step and no instruction answers one: only `boot` does, before there is a machine. -/
inductive Refusal where
  /-- The arm of an instruction that has no meaning yet. No arm answers it. Safe. -/
  | notModelled (mnemonic : String)
  /-- `boot` answers it to an empty image (R12, R231). Safe: there is no machine. -/
  | emptyImage
  /-- `boot` answers it to an image longer than MEM_SIZE (R12, R231). Safe: there is no machine. -/
  | imageTooLong
  /-- `boot` answers it to a non-empty CUSTOM_OPS, whose handlers the spec does not specify (R86). Safe. -/
  | customOpcodes
  /-- `boot` answers it to an ERROR_HOOK other than the default (R207, U1). Safe. -/
  | embedderHook
  /-- `boot` answers it to the run-to-bound configuration, which is not provided (R35, U9). Safe. -/
  | runToBound
  /-- `boot` answers it to a bounded TEXT_MAX: no rule says what a text beyond the bound does (D18, R24). Safe. -/
  | boundedText
deriving DecidableEq, Repr

/-- What a step or a meaning answers. -/
abbrev Outcome := Host.Outcome State Fault Refusal

/-- The machine right after reset (R46, R230), over an address space in which every byte reads MEM_FILL. A program is
loaded from outside: `boot` is the reset of R230 with an image (notes/assumptions/12.md). The stack cells, which R39 calls
unspecified and unobservable, are zero (DESIGN CHOICE, notes/assumptions/9.md). -/
def State.reset : State where
  regs := Vector.replicate Config.nreg (.int 0)
  z := false
  pc := 0
  mem := []
  stack := List.replicate Config.stackDepth 0
  sp := 0
  status := .running
  unk := 0
  fault := none
  trace := []
  draws := 0

end Sys2Proof.Machine
end

