-- ==== Sys2Proof/Machine/Flags.lean ====
section
/-! DEFINITION. Every computation of the Z flag (`10_state.md` R28): the zero check of arithmetic, the equality of the
comparisons, and the kind tests of the predicates. -/

namespace Sys2Proof.Machine

/-- Z of an arithmetic result: the stored result is exactly zero (R120, R29). -/
def zeroFlag (r : Word) : Bool := decide (r = 0)

/-- Z of a comparison: same kind and equal; texts by byte-exact equality; kinds that differ are not equal (R145, R150). -/
def equalFlag : Value → Value → Bool
  | .int a, .int b => decide (a = b)
  | .text s, .text t => decide (s = t)
  | .int _, .text _ => false
  | .text _, .int _ => false

/-- Z of IS_STRING: the register holds Text (R148). -/
def isTextFlag : Value → Bool
  | .text _ => true
  | .int _ => false

/-- Z of IS_INTEGER: the register holds an Integer (R149). -/
def isIntFlag : Value → Bool
  | .int _ => true
  | .text _ => false

end Sys2Proof.Machine
end

