-- ==== Sys2Proof/Machine/Ops.lean ====
section
/-! DEFINITION. The named operations over memory, registers, stack, ports and status (the primitives of `00_scope.md` R10),
the fault entry of `60_exceptions.md` R203, and the unknown-opcode action of `30_encoding.md` R85. There is no return from
a fault (R206), so none is defined. -/

namespace Sys2Proof.Machine

/-! ## Memory -/

/-- The byte at an address: the last one loaded or written there (`20_memory.md` R55, R60; `10_state.md` R41). -/
def Memory.get : Memory → Nat → Byte
  | [], _ => Config.unlisted
  | (k, v) :: m, a => if k = a then v else Memory.get m a

/-- Put an entry in its place by address. -/
def Memory.insert : Memory → Nat → Byte → Memory
  | [], a, v => [(a, v)]
  | (k, w) :: m, a, v => if a < k then (a, v) :: (k, w) :: m else (k, w) :: Memory.insert m a v

/-- Replace the byte at one address and keep the canonical form: the old entry goes, and a byte equal to what an unlisted
address reads as is not listed. -/
def Memory.set (m : Memory) (a : Nat) (v : Byte) : Memory :=
  let rest := m.filter (fun c => c.1 != a)
  if v = Config.unlisted then rest else Memory.insert rest a v

/-- Consecutive bytes stored from an address upward. -/
def Memory.setBytes : Memory → Nat → List Byte → Memory
  | m, _, [] => m
  | m, a, b :: bs => Memory.setBytes (Memory.set m a b) (a + 1) bs

/-- The loop of MEMCPY: `n` bytes from `s` to `d`, one at a time, ascending, each read after the writes before it
(`48_memory_ops.md` R162). -/
def Memory.copyUp : Memory → Nat → Nat → Nat → Memory
  | m, _, _, 0 => m
  | m, d, s, n + 1 => Memory.copyUp (Memory.set m d (Memory.get m s)) (d + 1) (s + 1) n

/-- An address space in which every byte is `fill` (MEM_FILL before the image is loaded, R41, R230), in the canonical form. -/
def Memory.filled (fill : Byte) : Memory :=
  if fill = Config.unlisted then [] else (List.range Config.memSize).map (fun a => (a, fill))

/-- The canonical form: addresses strictly rising and below MEM_SIZE, no entry equal to what an unlisted address reads as. -/
def Memory.wf (m : Memory) : Bool :=
  decide (m.Pairwise (fun c d => c.1 < d.1)) && m.all (fun c => decide (c.1 < Config.memSize) && c.2 != Config.unlisted)

/-! ## Updates of the state -/

/-- The Value in a register (R22, R23). -/
def State.reg (s : State) (i : Fin Config.nreg) : Value := s.regs[i.val]

/-- `x[i] <- V` (R9): the whole Value is replaced, whatever its kind was (R23, R25). -/
def State.setReg (s : State) (i : Fin Config.nreg) (v : Value) : State := { s with regs := s.regs.set i.val v i.isLt }

/-- `z <- b` (R28). -/
def State.setZ (s : State) (b : Bool) : State := { s with z := b }

/-- `pc <- a` (R143). -/
def State.setPc (s : State) (a : Word) : State := { s with pc := a }

/-- Step 7 of R33: `pc <- pc + length` (R32). -/
def State.advance (s : State) (length : Nat) : State := { s with pc := s.pc + BitVec.ofNat 32 length }

/-- The address space replaced. -/
def State.setMem (s : State) (m : Memory) : State := { s with mem := m }

/-- `status <- Halted` (R100). -/
def State.halt (s : State) : State := { s with status := .halted }

/-- `Emit(e)` (R10, R13): the event goes to the end of the output trace. -/
def State.emit (s : State) (e : Event) : State := { s with trace := s.trace ++ [e] }

/-- `Draw16()` (R10, R14): the next draw of the random port, and the state after it is consumed. -/
def State.draw16 (s : State) : Half × State := (Config.draw s.draws, { s with draws := s.draws + 1 })

/-! ## Taking a fault -/

/-- Fault entry (R203): the record takes the cause, the pc of the faulting opcode and the info value, the status becomes
Faulted, and everything else keeps its value. -/
def State.raise (s : State) (r : Raise) : State :=
  { s with fault := some { cause := r.cause, atPc := s.pc, info := r.info }, status := .faulted }

/-- The end of an instruction that began in `s`: its result, or the fault entry from `s` itself, so that every write of
the step is discarded (R203, R204). -/
def settle (s : State) : Except Raise State → Outcome
  | .ok t => .next t
  | .error r => .next (s.raise r)

/-! ## Checked access (R10) -/

/-- `MemRead(a, 1)`: a byte, or AddressOutOfRange(a) (R53). -/
def State.memRead (s : State) (a : Word) : Except Raise Byte :=
  if a.toNat < Config.memSize then .ok (Memory.get s.mem a.toNat) else .error ⟨.addressOutOfRange, a.toNat⟩

/-- `MemWrite(a, 1, b)`: the byte stored, or AddressOutOfRange(a) (R53). -/
def State.memWrite (s : State) (a : Word) (b : Byte) : Except Raise State :=
  if a.toNat < Config.memSize then .ok (s.setMem (Memory.set s.mem a.toNat b))
  else .error ⟨.addressOutOfRange, a.toNat⟩

/-- The range check of MEMCPY: `n` bytes from base `a`, in unbounded arithmetic; a range of no bytes is not checked; the
info value is the base (R162). -/
def rangeCheck (a n : Word) : Except Raise Unit :=
  if 0 < n.toNat ∧ Config.memSize < a.toNat + n.toNat then .error ⟨.addressOutOfRange, a.toNat⟩ else .ok ()

/-- `Push(w)` on a stack of `depth` cells: store, then increment, or StackOverflow when `sp = STACK_DEPTH` (R36, R38). -/
def State.push (s : State) (depth : Nat) (w : Word) : Except Raise State :=
  if s.sp < depth then .ok { s with stack := s.stack.set s.sp w, sp := s.sp + 1 }
  else .error ⟨.stackOverflow, 0⟩

/-- `Pop()`: decrement, then read, or StackUnderflow when `sp = 0` (R36, R38). The cell keeps its bits (R39). The cell it
reads is there whenever `sp` is at most the number of cells (`Inv`). -/
def State.pop (s : State) : Except Raise (Word × State) :=
  if 0 < s.sp then .ok (s.stack.getD (s.sp - 1) 0, { s with sp := s.sp - 1 }) else .error ⟨.stackUnderflow, 0⟩

/-! ## The unknown opcode -/

/-- `UnknownOpcode(op)` (R85): the counter goes up; above the limit UnrecognizedOpcode is raised, the increment kept (R203,
C14); otherwise the byte is a one-byte no-op. The limit is the parameter UNKNOWN_LIMIT (notes/assumptions/3.md). -/
def unknownOpcode (limit : Option Nat) (op : Byte) (s : State) : State :=
  let s' : State := { s with unk := s.unk + 1 }
  match limit with
  | some l => if l < s'.unk then s'.raise ⟨.unrecognizedOpcode, op.toNat⟩ else s'.advance 1
  | none => s'.advance 1

end Sys2Proof.Machine
end

