-- ==== Sys2Proof/Machine/Operands.lean ====
section
/-! DEFINITION. Register operands (`30_encoding.md` R72) and the kind checks of `10_state.md` R25, in the forms the
instruction rules use. -/

namespace Sys2Proof.Machine

/-- `RegCheck(i)` (R10): a register byte below NREG names a register, any other raises IndexOutOfBounds with its value
(R72, R200). -/
def regCheck (b : Byte) : Except Raise (Fin Config.nreg) :=
  if h : b.toNat < Config.nreg then .ok ⟨b.toNat, h⟩ else .error ⟨.indexOutOfBounds, b.toNat⟩

/-- `IntOf(i)` (R10): the integer of the register, or TypeMismatch(i). -/
def State.intOf (s : State) (i : Fin Config.nreg) : Except Raise Word :=
  match s.reg i with
  | .int v => .ok v
  | .text _ => .error ⟨.typeMismatch, i.val⟩

/-- `TextOf(i)` (R10): the text of the register, or TypeMismatch(i). -/
def State.textOf (s : State) (i : Fin Config.nreg) : Except Raise (List Byte) :=
  match s.reg i with
  | .text t => .ok t
  | .int _ => .error ⟨.typeMismatch, i.val⟩

/-- A 16-bit immediate as an integer: zero-extended to XLEN bits (R75). -/
def immWord (imm : Half) : Word := imm.setWidth 32

/-- A 16-bit target as a value of pc: an absolute byte address (R75). -/
def targetWord (target : Half) : Word := target.setWidth 32

/-- A loaded byte as an integer: zero-extended (R163). -/
def byteWord (b : Byte) : Word := b.setWidth 32

/-- The stored byte of an integer: its low 8 bits (R161, R163). -/
def lowByte (v : Word) : Byte := v.setWidth 8

end Sys2Proof.Machine
end

