-- ==== Sys2Proof/Machine/Arith.lean ====
section
/-! DEFINITION. ADD, SUB, MUL, DIV, XOR, AND, OR, INC, DEC (`43_arithmetic.md`): unsigned arithmetic modulo 2^32 (R121). -/

namespace Sys2Proof.Machine

/-- The common shape of the binary operations (R120): the three index checks, the two kind checks, then the operation
(which may raise), then the destination and Z. Both sources are read before the destination is written. -/
def binaryOp (f : Word → Word → Except Raise Word) (ra rb rc : Byte) (s : State) : Outcome :=
  settle s do
    let d ← regCheck ra
    let i ← regCheck rb
    let j ← regCheck rc
    let a ← s.intOf i
    let b ← s.intOf j
    let r ← f a b
    return ((s.setReg d (.int r)).setZ (zeroFlag r)).advance 4

/-- The common shape of INC and DEC (R129, R130): the register is its own source. -/
def unaryOp (f : Word → Word) (ra : Byte) (s : State) : Outcome :=
  settle s do
    let i ← regCheck ra
    let a ← s.intOf i
    return ((s.setReg i (.int (f a))).setZ (zeroFlag (f a))).advance 2

/-- Unsigned floor division; a divisor of 0 raises DivisionByZero (R121, R125). -/
def divide (a b : Word) : Except Raise Word := if b = 0 then .error ⟨.divisionByZero, 0⟩ else .ok (a / b)

/-- ADD (R122): `(a + b) mod 2^32`. -/
def execAdd (ra rb rc : Byte) (s : State) : Outcome := binaryOp (fun a b => .ok (a + b)) ra rb rc s

/-- SUB (R123): `(a - b) mod 2^32`, first source minus second. -/
def execSub (ra rb rc : Byte) (s : State) : Outcome := binaryOp (fun a b => .ok (a - b)) ra rb rc s

/-- MUL (R124): the low 32 bits of the product. -/
def execMul (ra rb rc : Byte) (s : State) : Outcome := binaryOp (fun a b => .ok (a * b)) ra rb rc s

/-- DIV (R125): the quotient, or DivisionByZero after both kind checks. -/
def execDiv (ra rb rc : Byte) (s : State) : Outcome := binaryOp divide ra rb rc s

/-- XOR (R126), bit by bit. -/
def execXor (ra rb rc : Byte) (s : State) : Outcome := binaryOp (fun a b => .ok (a ^^^ b)) ra rb rc s

/-- AND (R127), bit by bit. -/
def execAnd (ra rb rc : Byte) (s : State) : Outcome := binaryOp (fun a b => .ok (a &&& b)) ra rb rc s

/-- OR (R128), bit by bit. -/
def execOr (ra rb rc : Byte) (s : State) : Outcome := binaryOp (fun a b => .ok (a ||| b)) ra rb rc s

/-- INC (R129): `(a + 1) mod 2^32`. -/
def execInc (ra : Byte) (s : State) : Outcome := unaryOp (fun a => a + 1) ra s

/-- DEC (R130): `(a - 1) mod 2^32`. -/
def execDec (ra : Byte) (s : State) : Outcome := unaryOp (fun a => a - 1) ra s

end Sys2Proof.Machine
end

