-- ==== Sys2Proof/Machine/Compare.lean ====
section
/-! DEFINITION. CMP_REG, CMP_IMM, CMP_STR, IS_STRING, IS_INTEGER (`46_compare_predicates.md`). They read registers by kind,
never raise TypeMismatch, and write Z and nothing else (R150). -/

namespace Sys2Proof.Machine

/-- The common shape of a test of one register: Z takes the answer, pc moves past the instruction. -/
def testReg (f : Value → Bool) (ra : Byte) (length : Nat) (s : State) : Outcome :=
  settle s do
    let i ← regCheck ra
    return (s.setZ (f (s.reg i))).advance length

/-- CMP_REG (R145). -/
def execCmpReg (ra rb : Byte) (s : State) : Outcome :=
  settle s do
    let i ← regCheck ra
    let j ← regCheck rb
    return (s.setZ (equalFlag (s.reg i) (s.reg j))).advance 3

/-- CMP_IMM (R146): against the zero-extended immediate, on all 32 bits. -/
def execCmpImm (ra : Byte) (imm : Half) (s : State) : Outcome :=
  testReg (fun v => equalFlag v (.int (immWord imm))) ra 4 s

/-- CMP_STR (R147): against the inline literal, which is skipped whatever the register holds. -/
def execCmpStr (ra : Byte) (text : List Byte) (s : State) : Outcome :=
  testReg (fun v => equalFlag v (.text text)) ra (4 + text.length) s

/-- IS_STRING (R148). -/
def execIsString (ra : Byte) (s : State) : Outcome := testReg isTextFlag ra 2 s

/-- IS_INTEGER (R149). -/
def execIsInteger (ra : Byte) (s : State) : Outcome := testReg isIntFlag ra 2 s

end Sys2Proof.Machine
end

