-- ==== Sys2Proof/Machine/Control.lean ====
section
/-! DEFINITION. EXIT and NOP (`40_exit_nop.md`). -/

namespace Sys2Proof.Machine

/-- EXIT (R100): the status becomes Halted, and pc ends one past the EXIT byte. -/
def execExit (s : State) : Outcome := .next (s.halt.advance 1)

/-- NOP (R101): nothing but the advance of pc. -/
def execNop (s : State) : Outcome := .next (s.advance 1)

end Sys2Proof.Machine
end

