-- ==== Sys2Proof/Machine/Immediate.lean ====
section
/-! DEFINITION. INT_STORE and STRING_STORE (`41_store_immediate.md`). -/

namespace Sys2Proof.Machine

/-- The shape of both stores: the register byte is checked, the whole Value replaced, pc moves past the instruction. -/
def storeValue (ra : Byte) (v : Value) (length : Nat) (s : State) : Outcome :=
  settle s do
    let d ← regCheck ra
    return (s.setReg d v).advance length

/-- INT_STORE (R105): the register becomes the zero-extended immediate. -/
def execIntStore (ra : Byte) (imm : Half) (s : State) : Outcome := storeValue ra (.int (immWord imm)) 4 s

/-- STRING_STORE (R106): the register becomes the inline literal; pc moves past it. -/
def execStringStore (ra : Byte) (text : List Byte) (s : State) : Outcome :=
  storeValue ra (.text text) (4 + text.length) s

end Sys2Proof.Machine
end

