-- ==== Sys2Proof/Machine/Text.lean ====
section
/-! DEFINITION. The conversions between integers and texts: `Dec` (`42_io_convert_random.md` R115), `PARSE_INT` (R117), and
the host-side rendering `RENDER_INT` (`00_scope.md` R6). -/

namespace Sys2Proof.Machine

/-- The ASCII byte of a decimal digit, 0x30 to 0x39 (R115). -/
def digitByte (d : Nat) : Byte := BitVec.ofNat 8 (0x30 + d)

/-- The decimal digits of `n`, most significant first, in front of `acc`; `fuel` bounds their number. -/
def decDigits : Nat → Nat → List Byte → List Byte
  | 0, _, acc => acc
  | fuel + 1, n, acc =>
    let acc' := digitByte (n % 10) :: acc
    if n / 10 = 0 then acc' else decDigits fuel (n / 10) acc'

/-- `Dec(v)`: the shortest decimal numeral of `v` in ASCII (R115). Ten digits hold every 32-bit value. -/
def dec (v : Word) : List Byte := decDigits 10 v.toNat []

/-- A byte 0x30 to 0x39 (R117). -/
def isDigit (b : Byte) : Bool := decide (0x30 ≤ b.toNat) && decide (b.toNat ≤ 0x39)

/-- The decimal value of a sequence of digit bytes. -/
def decValue (t : List Byte) : Nat := t.foldl (fun acc b => 10 * acc + (b.toNat - 0x30)) 0

/-- `PARSE_INT`, the default instance of R117: the value of the longest leading run of digits, 0 if there is none, modulo
2^32 (DESIGN CHOICE, notes/assumptions/5.md: the instance `step` runs with). -/
def parseInt (t : List Byte) : Word := BitVec.ofNat 32 (decValue (t.takeWhile isDigit))

/-- The ASCII byte of an upper-case hexadecimal digit. -/
def hexByte (d : Nat) : Byte := if d < 10 then BitVec.ofNat 8 (0x30 + d) else BitVec.ofNat 8 (0x37 + d)

/-- The low `count` hexadecimal digits of `n`, most significant first. -/
def hexDigits : Nat → Nat → List Byte
  | 0, _ => []
  | count + 1, n => hexDigits count (n / 16) ++ [hexByte (n % 16)]

/-- How many hexadecimal digits RENDER_INT shows: as many as the value needs, at least four. -/
def hexCount (n : Nat) : Nat :=
  if n < 0x10000 then 4 else if n < 0x100000 then 5 else if n < 0x1000000 then 6 else if n < 0x10000000 then 7 else 8

/-- `RENDER_INT`, the host's default rendering of a printed integer: `0x` and at least four upper-case hexadecimal digits
(R6). No rule of the engine depends on it (notes/assumptions/6.md). -/
def renderInt (v : Word) : List Byte := [0x30, 0x78] ++ hexDigits (hexCount v.toNat) v.toNat

end Sys2Proof.Machine
end

