-- ==== Sys2Proof/Machine/Io.lean ====
section
/-! DEFINITION. INT_PRINT, STRING_PRINT, INT_TOSTRING, STRING_TOINT, INT_RANDOM (`42_io_convert_random.md`). All are format
R, two bytes long, and none writes Z. -/

namespace Sys2Proof.Machine

/-- INT_PRINT (R110): the register's integer goes to the output port. -/
def execIntPrint (ra : Byte) (s : State) : Outcome :=
  settle s do
    let i ← regCheck ra
    let v ← s.intOf i
    return (s.emit (.outInt v)).advance 2

/-- STRING_PRINT (R111): the register's text goes to the output port. -/
def execStringPrint (ra : Byte) (s : State) : Outcome :=
  settle s do
    let i ← regCheck ra
    let t ← s.textOf i
    return (s.emit (.outText t)).advance 2

/-- INT_TOSTRING (R112): the integer is replaced by its decimal text. -/
def execIntToString (ra : Byte) (s : State) : Outcome :=
  settle s do
    let i ← regCheck ra
    let v ← s.intOf i
    return (s.setReg i (.text (dec v))).advance 2

/-- STRING_TOINT (R113) under an instance of PARSE_INT (R117): the text is replaced by its value; no content faults. -/
def stringToIntUnder (parse : List Byte → Word) (ra : Byte) (s : State) : Outcome :=
  settle s do
    let i ← regCheck ra
    let t ← s.textOf i
    return (s.setReg i (.int (parse t))).advance 2

/-- STRING_TOINT (R113) under the default instance of R117. -/
def execStringToInt (ra : Byte) (s : State) : Outcome := stringToIntUnder parseInt ra s

/-- INT_RANDOM (R114): the register becomes a draw of the random port, 0 to 65535, whatever it held. -/
def execIntRandom (ra : Byte) (s : State) : Outcome :=
  settle s do
    let i ← regCheck ra
    let (d, s') := s.draw16
    return (s'.setReg i (.int (immWord d))).advance 2

end Sys2Proof.Machine
end

