-- ==== Sys2Proof/Machine/Jump.lean ====
section
/-! DEFINITION. JMP, JMPZ, JMPNZ (`45_jumps.md`). Targets are absolute; there is no delay slot (R143). -/

namespace Sys2Proof.Machine

/-- Take the branch, or fall through past its three bytes (R141). -/
def branch (taken : Bool) (target : Half) (s : State) : Outcome :=
  .next (if taken then s.setPc (targetWord target) else s.advance 3)

/-- JMP (R140). -/
def execJmp (target : Half) (s : State) : Outcome := branch true target s

/-- JMPZ (R141): branches iff Z is set. -/
def execJmpz (target : Half) (s : State) : Outcome := branch s.z target s

/-- JMPNZ (R142): branches iff Z is not set. -/
def execJmpnz (target : Half) (s : State) : Outcome := branch (!s.z) target s

end Sys2Proof.Machine
end

