-- ==== Sys2Proof/Machine/MemoryOps.lean ====
section
/-! DEFINITION. PEEK, POKE, MEMCPY (`48_memory_ops.md`): register-indirect addresses, the full 32-bit integer, never
reduced (R163). None writes Z. -/

namespace Sys2Proof.Machine

/-- PEEK (R160): the byte at the address in `rb`, zero-extended, into `ra`. -/
def execPeek (ra rb : Byte) (s : State) : Outcome :=
  settle s do
    let d ← regCheck ra
    let i ← regCheck rb
    let a ← s.intOf i
    let b ← s.memRead a
    return (s.setReg d (.int (byteWord b))).advance 3

/-- POKE (R161): the low 8 bits of `ra` to the address in `rb`. -/
def execPoke (ra rb : Byte) (s : State) : Outcome :=
  settle s do
    let i ← regCheck ra
    let j ← regCheck rb
    let v ← s.intOf i
    let a ← s.intOf j
    let s' ← s.memWrite a (lowByte v)
    return s'.advance 3

/-- MEMCPY (R162): destination in `ra`, source in `rb`, length in `rc`; both ranges are checked, the destination first,
before the first byte is written; then the ascending loop. -/
def execMemcpy (ra rb rc : Byte) (s : State) : Outcome :=
  settle s do
    let i ← regCheck ra
    let j ← regCheck rb
    let k ← regCheck rc
    let d ← s.intOf i
    let a ← s.intOf j
    let n ← s.intOf k
    rangeCheck d n
    rangeCheck a n
    return (s.setMem (Memory.copyUp s.mem d.toNat a.toNat n.toNat)).advance 4

end Sys2Proof.Machine
end

