-- ==== Sys2Proof/Machine/Move.lean ====
section
/-! DEFINITION. MOV (`47_move.md`). -/

namespace Sys2Proof.Machine

/-- MOV (R155): the whole Value, kind included; Z is unchanged. -/
def execMov (ra rb : Byte) (s : State) : Outcome :=
  settle s do
    let d ← regCheck ra
    let i ← regCheck rb
    return (s.setReg d (s.reg i)).advance 3

end Sys2Proof.Machine
end

