-- ==== Sys2Proof/Machine/StackCall.lean ====
section
/-! DEFINITION. PUSH, POP, CALL, RET (`49_stack_call.md`). The engine enforces capacity only (R177). -/

namespace Sys2Proof.Machine

/-- PUSH (R170) on a stack of `depth` cells: the register's integer; a text cannot be pushed. -/
def pushUnder (depth : Nat) (ra : Byte) (s : State) : Outcome :=
  settle s do
    let i ← regCheck ra
    let v ← s.intOf i
    let s' ← s.push depth v
    return s'.advance 2

/-- PUSH (R170) under the default STACK_DEPTH. -/
def execPush (ra : Byte) (s : State) : Outcome := pushUnder Config.stackDepth ra s

/-- POP (R171): the index check comes before the underflow. -/
def execPop (ra : Byte) (s : State) : Outcome :=
  settle s do
    let i ← regCheck ra
    let (w, s') ← s.pop
    return (s'.setReg i (.int w)).advance 2

/-- CALL (R175) on a stack of `depth` cells: the address after the call, `pc + 3` unreduced, is pushed; then pc is the
target. -/
def callUnder (depth : Nat) (target : Half) (s : State) : Outcome :=
  settle s do
    let s' ← s.push depth (s.pc + 3)
    return s'.setPc (targetWord target)

/-- CALL (R175) under the default STACK_DEPTH. -/
def execCall (target : Half) (s : State) : Outcome := callUnder Config.stackDepth target s

/-- RET (R176): pc is the popped pattern, of any 32-bit value. -/
def execRet (s : State) : Outcome :=
  settle s do
    let (w, s') ← s.pop
    return s'.setPc w

end Sys2Proof.Machine
end

