-- ==== Sys2Proof/Machine/TextOps.lean ====
section
/-! DEFINITION. CONCAT and SYSTEM (`44_text_system.md`). -/

namespace Sys2Proof.Machine

/-- CONCAT (R135): the bytes of the first source, then those of the second; both are read before the destination is
written, and the length has no bound. -/
def execConcat (ra rb rc : Byte) (s : State) : Outcome :=
  settle s do
    let d ← regCheck ra
    let i ← regCheck rb
    let j ← regCheck rc
    let t ← s.textOf i
    let u ← s.textOf j
    return (s.setReg d (.text (t ++ u))).advance 4

/-- SYSTEM (R137): the command goes to the output port; nothing comes back. The step is taken as completing (D22,
notes/assumptions/14.md). -/
def execSystem (ra : Byte) (s : State) : Outcome :=
  settle s do
    let i ← regCheck ra
    let t ← s.textOf i
    return (s.emit (.system t)).advance 2

end Sys2Proof.Machine
end

