-- ==== Sys2Proof/Syntax.lean ====
section
/-! DEFINITION. The 36 instructions of `30_encoding.md` R78 (one constructor per row of spec/opcode_table.json, in the
table's order), with their operands in encoding order (R71, R73). -/

namespace Sys2Proof

/-- One constructor per row of the opcode table. `ra`, `rb`, `rc` are register operands, whole bytes 0 to 255 (R72: a
value of NREG or more is encodable and raises when the instruction executes); `imm` and `target` are 16-bit values (R75);
`text` is an inline literal (R76). -/
inductive Instr where
  | exit
  | intStore (ra : Byte) (imm : Half)
  | intPrint (ra : Byte)
  | intToString (ra : Byte)
  | intRandom (ra : Byte)
  | jmp (target : Half)
  | jmpz (target : Half)
  | jmpnz (target : Half)
  | xor (ra rb rc : Byte)
  | add (ra rb rc : Byte)
  | sub (ra rb rc : Byte)
  | mul (ra rb rc : Byte)
  | div (ra rb rc : Byte)
  | inc (ra : Byte)
  | dec (ra : Byte)
  | and (ra rb rc : Byte)
  | or (ra rb rc : Byte)
  | stringStore (ra : Byte) (text : List Byte)
  | stringPrint (ra : Byte)
  | concat (ra rb rc : Byte)
  | system (ra : Byte)
  | stringToInt (ra : Byte)
  | cmpReg (ra rb : Byte)
  | cmpImm (ra : Byte) (imm : Half)
  | cmpStr (ra : Byte) (text : List Byte)
  | isString (ra : Byte)
  | isInteger (ra : Byte)
  | nop
  | mov (ra rb : Byte)
  | peek (ra rb : Byte)
  | poke (ra rb : Byte)
  | memcpy (ra rb rc : Byte)
  | push (ra : Byte)
  | pop (ra : Byte)
  | ret
  | call (target : Half)
deriving DecidableEq, Repr

end Sys2Proof
end

