-- ==== Sys2Proof/Machine/Dispatch.lean ====
section
/-! DEFINITION. Dispatch: one arm per instruction, one meaning each (`30_encoding.md` R79). -/

namespace Sys2Proof.Machine

def exec (i : Instr) (s : State) : Host.Outcome State Fault Refusal :=
  match i with
  | .exit => Sys2Proof.Machine.execExit s
  | .intStore ra imm => Sys2Proof.Machine.execIntStore ra imm s
  | .intPrint ra => Sys2Proof.Machine.execIntPrint ra s
  | .intToString ra => Sys2Proof.Machine.execIntToString ra s
  | .intRandom ra => Sys2Proof.Machine.execIntRandom ra s
  | .jmp target => Sys2Proof.Machine.execJmp target s
  | .jmpz target => Sys2Proof.Machine.execJmpz target s
  | .jmpnz target => Sys2Proof.Machine.execJmpnz target s
  | .xor ra rb rc => Sys2Proof.Machine.execXor ra rb rc s
  | .add ra rb rc => Sys2Proof.Machine.execAdd ra rb rc s
  | .sub ra rb rc => Sys2Proof.Machine.execSub ra rb rc s
  | .mul ra rb rc => Sys2Proof.Machine.execMul ra rb rc s
  | .div ra rb rc => Sys2Proof.Machine.execDiv ra rb rc s
  | .inc ra => Sys2Proof.Machine.execInc ra s
  | .dec ra => Sys2Proof.Machine.execDec ra s
  | .and ra rb rc => Sys2Proof.Machine.execAnd ra rb rc s
  | .or ra rb rc => Sys2Proof.Machine.execOr ra rb rc s
  | .stringStore ra text => Sys2Proof.Machine.execStringStore ra text s
  | .stringPrint ra => Sys2Proof.Machine.execStringPrint ra s
  | .concat ra rb rc => Sys2Proof.Machine.execConcat ra rb rc s
  | .system ra => Sys2Proof.Machine.execSystem ra s
  | .stringToInt ra => Sys2Proof.Machine.execStringToInt ra s
  | .cmpReg ra rb => Sys2Proof.Machine.execCmpReg ra rb s
  | .cmpImm ra imm => Sys2Proof.Machine.execCmpImm ra imm s
  | .cmpStr ra text => Sys2Proof.Machine.execCmpStr ra text s
  | .isString ra => Sys2Proof.Machine.execIsString ra s
  | .isInteger ra => Sys2Proof.Machine.execIsInteger ra s
  | .nop => Sys2Proof.Machine.execNop s
  | .mov ra rb => Sys2Proof.Machine.execMov ra rb s
  | .peek ra rb => Sys2Proof.Machine.execPeek ra rb s
  | .poke ra rb => Sys2Proof.Machine.execPoke ra rb s
  | .memcpy ra rb rc => Sys2Proof.Machine.execMemcpy ra rb rc s
  | .push ra => Sys2Proof.Machine.execPush ra s
  | .pop ra => Sys2Proof.Machine.execPop ra s
  | .ret => Sys2Proof.Machine.execRet s
  | .call target => Sys2Proof.Machine.execCall target s

end Sys2Proof.Machine
end

