-- ==== Sys2Proof/Decode.lean ====
section
/-! DEFINITION. Decoding and encoding: the formats of `30_encoding.md` R71, the opcode map OPMAP of R78 as an argument and
its default table, the 16-bit operand of `20_memory.md` R50. The decoder is total: a byte stream gives an instruction or is
rejected by name. -/

namespace Sys2Proof

/-- Why bytes are no instruction: byte 0 is an opcode outside the map (R79, R81), or the stream ends before byte `k` of
the instruction, the first one missing (`20_memory.md` R57). -/
inductive Reject where
  | unknownOpcode (op : Byte)
  | truncated (k : Nat)
deriving DecidableEq, Repr

/-- The 36 instructions as the opcode map selects them, without their operands (R78, R80). -/
inductive Op where
  | exit | intStore | intPrint | intToString | intRandom | jmp | jmpz | jmpnz | xor | add | sub | mul | div | inc
  | dec | and | or | stringStore | stringPrint | concat | system | stringToInt | cmpReg | cmpImm | cmpStr | isString
  | isInteger | nop | mov | peek | poke | memcpy | push | pop | ret | call
deriving DecidableEq, Repr

/-- Every one of them, in the order of R78. -/
def Op.all : List Op :=
  [.exit, .intStore, .intPrint, .intToString, .intRandom, .jmp, .jmpz, .jmpnz, .xor, .add, .sub, .mul, .div, .inc,
   .dec, .and, .or, .stringStore, .stringPrint, .concat, .system, .stringToInt, .cmpReg, .cmpImm, .cmpStr, .isString,
   .isInteger, .nop, .mov, .peek, .poke, .memcpy, .push, .pop, .ret, .call]

/-- OPMAP: the opcode byte of each instruction, a configuration table (R78, `00_scope.md` R6). -/
abbrev OpMap := Op → Byte

/-- What R78 asks of an opcode map: no byte selects two instructions, and EXIT is 0x00. -/
def OpMap.Legal (m : OpMap) : Prop := (∀ o p, m o = m p → o = p) ∧ m .exit = 0x00

/-- The instruction a byte selects, `none` for an unknown opcode; all 8 bits are compared (R79). -/
def OpMap.lookup (m : OpMap) (b : Byte) : Option Op := Op.all.find? (fun o => m o == b)

/-- The default map, the byte column of R78 (DESIGN CHOICE: the machine `step` runs is the one with this map,
notes/assumptions/2.md). -/
def OpMap.default : OpMap
  | .exit => 0x00
  | .intStore => 0x01
  | .intPrint => 0x02
  | .intToString => 0x03
  | .intRandom => 0x04
  | .jmp => 0x10
  | .jmpz => 0x11
  | .jmpnz => 0x12
  | .xor => 0x20
  | .add => 0x21
  | .sub => 0x22
  | .mul => 0x23
  | .div => 0x24
  | .inc => 0x25
  | .dec => 0x26
  | .and => 0x27
  | .or => 0x28
  | .stringStore => 0x30
  | .stringPrint => 0x31
  | .concat => 0x32
  | .system => 0x33
  | .stringToInt => 0x34
  | .cmpReg => 0x40
  | .cmpImm => 0x41
  | .cmpStr => 0x42
  | .isString => 0x43
  | .isInteger => 0x44
  | .nop => 0x50
  | .mov => 0x51
  | .peek => 0x60
  | .poke => 0x61
  | .memcpy => 0x62
  | .push => 0x70
  | .pop => 0x71
  | .ret => 0x72
  | .call => 0x73

/-- A 16-bit operand from its two bytes, the low byte at the lower address: `lo + 256 * hi` (R50, R75). -/
def half (lo hi : Byte) : Half := BitVec.ofNat 16 (lo.toNat + 256 * hi.toNat)

/-- The low byte of a 16-bit operand. -/
def loByte (h : Half) : Byte := BitVec.ofNat 8 h.toNat

/-- The high byte of a 16-bit operand. -/
def hiByte (h : Half) : Byte := BitVec.ofNat 8 (h.toNat / 256)

/-- FetchBytes (R10): the `n` bytes at positions `k`, `k + 1`, ..., in ascending order (R51, R76). -/
def literalAt (byte : Nat → Byte) : Nat → Nat → List Byte
  | _, 0 => []
  | k, n + 1 => byte k :: literalAt byte (k + 1) n

/-- The instruction's `len` bytes are there, or the first missing one is byte `avail` (R210 item 1). -/
def needBytes (avail len : Nat) (i : Instr) : Except Reject Instr :=
  if avail < len then .error (.truncated avail) else .ok i

/-- Format N: opcode alone (R71). -/
def formN (avail : Nat) (i : Instr) : Except Reject Instr := needBytes avail 1 i

/-- Format R: opcode, `ra`. -/
def formR (byte : Nat → Byte) (avail : Nat) (mk : Byte → Instr) : Except Reject Instr :=
  needBytes avail 2 (mk (byte 1))

/-- Format RR: opcode, `ra`, `rb`. -/
def formRR (byte : Nat → Byte) (avail : Nat) (mk : Byte → Byte → Instr) : Except Reject Instr :=
  needBytes avail 3 (mk (byte 1) (byte 2))

/-- Format RRR: opcode, `ra`, `rb`, `rc`. -/
def formRRR (byte : Nat → Byte) (avail : Nat) (mk : Byte → Byte → Byte → Instr) : Except Reject Instr :=
  needBytes avail 4 (mk (byte 1) (byte 2) (byte 3))

/-- Format A: opcode, low and high byte of the target. -/
def formA (byte : Nat → Byte) (avail : Nat) (mk : Half → Instr) : Except Reject Instr :=
  needBytes avail 3 (mk (half (byte 1) (byte 2)))

/-- Format RI: opcode, `ra`, low and high byte of the immediate. -/
def formRI (byte : Nat → Byte) (avail : Nat) (mk : Byte → Half → Instr) : Except Reject Instr :=
  needBytes avail 4 (mk (byte 1) (half (byte 2) (byte 3)))

/-- Format RT: opcode, `ra`, low and high byte of the length `n`, then `n` literal bytes (R74, R76). The length field is
fetched before the literal (R210 item 1). -/
def formRT (byte : Nat → Byte) (avail : Nat) (mk : Byte → List Byte → Instr) : Except Reject Instr :=
  if avail < 4 then .error (.truncated avail)
  else
    let n := (half (byte 2) (byte 3)).toNat
    needBytes avail (4 + n) (mk (byte 1) (literalAt byte 4 n))

/-- The operands of each instruction, by the format of its row (R71, R78). -/
def decodeOp (op : Op) (byte : Nat → Byte) (avail : Nat) : Except Reject Instr :=
  match op with
  | .exit => formN avail .exit
  | .intStore => formRI byte avail .intStore
  | .intPrint => formR byte avail .intPrint
  | .intToString => formR byte avail .intToString
  | .intRandom => formR byte avail .intRandom
  | .jmp => formA byte avail .jmp
  | .jmpz => formA byte avail .jmpz
  | .jmpnz => formA byte avail .jmpnz
  | .xor => formRRR byte avail .xor
  | .add => formRRR byte avail .add
  | .sub => formRRR byte avail .sub
  | .mul => formRRR byte avail .mul
  | .div => formRRR byte avail .div
  | .inc => formR byte avail .inc
  | .dec => formR byte avail .dec
  | .and => formRRR byte avail .and
  | .or => formRRR byte avail .or
  | .stringStore => formRT byte avail .stringStore
  | .stringPrint => formR byte avail .stringPrint
  | .concat => formRRR byte avail .concat
  | .system => formR byte avail .system
  | .stringToInt => formR byte avail .stringToInt
  | .cmpReg => formRR byte avail .cmpReg
  | .cmpImm => formRI byte avail .cmpImm
  | .cmpStr => formRT byte avail .cmpStr
  | .isString => formR byte avail .isString
  | .isInteger => formR byte avail .isInteger
  | .nop => formN avail .nop
  | .mov => formRR byte avail .mov
  | .peek => formRR byte avail .peek
  | .poke => formRR byte avail .poke
  | .memcpy => formRRR byte avail .memcpy
  | .push => formR byte avail .push
  | .pop => formR byte avail .pop
  | .ret => formN avail .ret
  | .call => formA byte avail .call

/-- The decoder under an opcode map, over a stream of `avail` bytes, byte `k` being `byte k`. Byte 0 alone selects the
instruction (R79), and a byte outside the map is reported before any operand is looked at (`10_state.md` R33 step 4). -/
def decodeUnder (m : OpMap) (byte : Nat → Byte) (avail : Nat) : Except Reject Instr :=
  if avail = 0 then .error (.truncated 0)
  else
    match m.lookup (byte 0) with
    | some op => decodeOp op byte avail
    | none => .error (.unknownOpcode (byte 0))

/-- The decoder under the default map. -/
def decodeWith (byte : Nat → Byte) (avail : Nat) : Except Reject Instr := decodeUnder OpMap.default byte avail

/-- Decoding of a byte sequence under an opcode map; bytes after the instruction are not looked at. -/
def decodeBytesUnder (m : OpMap) (bs : List Byte) : Except Reject Instr :=
  decodeUnder m (fun k => bs.getD k 0) bs.length

/-- Decoding of a byte sequence under the default map. -/
def decode (bs : List Byte) : Except Reject Instr := decodeBytesUnder OpMap.default bs

/-! The encoder, written from the same tables (R71, R78). -/

/-- The instruction without its operands. -/
def Instr.op : Instr → Op
  | .exit => .exit
  | .intStore .. => .intStore
  | .intPrint .. => .intPrint
  | .intToString .. => .intToString
  | .intRandom .. => .intRandom
  | .jmp .. => .jmp
  | .jmpz .. => .jmpz
  | .jmpnz .. => .jmpnz
  | .xor .. => .xor
  | .add .. => .add
  | .sub .. => .sub
  | .mul .. => .mul
  | .div .. => .div
  | .inc .. => .inc
  | .dec .. => .dec
  | .and .. => .and
  | .or .. => .or
  | .stringStore .. => .stringStore
  | .stringPrint .. => .stringPrint
  | .concat .. => .concat
  | .system .. => .system
  | .stringToInt .. => .stringToInt
  | .cmpReg .. => .cmpReg
  | .cmpImm .. => .cmpImm
  | .cmpStr .. => .cmpStr
  | .isString .. => .isString
  | .isInteger .. => .isInteger
  | .nop => .nop
  | .mov .. => .mov
  | .peek .. => .peek
  | .poke .. => .poke
  | .memcpy .. => .memcpy
  | .push .. => .push
  | .pop .. => .pop
  | .ret => .ret
  | .call .. => .call

/-- The opcode byte of an instruction under the default map (R78). -/
def Instr.opcode (i : Instr) : Byte := OpMap.default i.op

/-- The operand bytes of a 16-bit value, low byte first (R50). -/
def halfBytes (h : Half) : List Byte := [loByte h, hiByte h]

/-- The length field and the literal of format RT (R76). -/
def literalBytes (t : List Byte) : List Byte := halfBytes (BitVec.ofNat 16 t.length) ++ t

/-- The operand bytes of each instruction, in encoding order (R71, R73). -/
def Instr.operandBytes : Instr → List Byte
  | .exit | .nop | .ret => []
  | .intPrint a | .intToString a | .intRandom a | .inc a | .dec a | .stringPrint a | .system a | .stringToInt a
  | .isString a | .isInteger a | .push a | .pop a => [a]
  | .cmpReg a b | .mov a b | .peek a b | .poke a b => [a, b]
  | .xor a b c | .add a b c | .sub a b c | .mul a b c | .div a b c | .and a b c | .or a b c | .concat a b c
  | .memcpy a b c => [a, b, c]
  | .jmp t | .jmpz t | .jmpnz t | .call t => halfBytes t
  | .intStore a h | .cmpImm a h => a :: halfBytes h
  | .stringStore a t | .cmpStr a t => a :: literalBytes t

/-- The bytes of an instruction in ascending address order, under an opcode map (R82). -/
def encodeUnder (m : OpMap) (i : Instr) : List Byte := m i.op :: i.operandBytes

/-- The bytes of an instruction under the default map. -/
def encode (i : Instr) : List Byte := encodeUnder OpMap.default i

/-- The length of an instruction in bytes, by its format, and by its own literal for format RT (R74). -/
def Instr.length : Instr → Nat
  | .exit | .nop | .ret => 1
  | .intPrint _ | .intToString _ | .intRandom _ | .inc _ | .dec _ | .stringPrint _ | .system _ | .stringToInt _
  | .isString _ | .isInteger _ | .push _ | .pop _ => 2
  | .cmpReg _ _ | .mov _ _ | .peek _ _ | .poke _ _ | .jmp _ | .jmpz _ | .jmpnz _ | .call _ => 3
  | .xor _ _ _ | .add _ _ _ | .sub _ _ _ | .mul _ _ _ | .div _ _ _ | .and _ _ _ | .or _ _ _ | .concat _ _ _
  | .memcpy _ _ _ | .intStore _ _ | .cmpImm _ _ => 4
  | .stringStore _ t | .cmpStr _ t => 4 + t.length

/-- Byte `k` of an instruction given as the number `w` of `nbits` bits, bit 0 the least significant bit of byte 0; every
bit at or above `nbits` is 0. -/
def wordByte (nbits w k : Nat) : Byte := if 8 * k < nbits then BitVec.ofNat 8 (w >>> (8 * k)) else 0

/-- The instruction the decoder reads from the table's word: the bytes of `w`, then zeros up to the longest instruction,
4 + 65535 bytes (R74). -/
def decodeTableWord (nbits w : Nat) : Option Instr :=
  match decodeWith (wordByte nbits w) 65539 with
  | .ok i => some i
  | .error _ => none

end Sys2Proof
end

