-- ==== Sys2Proof/Machine/Params.lean ====
section
/-! DEFINITION. The parameters a model takes as arguments (`00_scope.md` R6, those `92_eei_decisions.md` marks OPEN: D2, D4,
D5, D6, D10, D12; TEXT_MAX, whose bounded form has no rule, is in `Config.Embedding`). -/

namespace Sys2Proof.Machine

/-- One instantiation of the parameters, fixed before the run (R20, R235). -/
structure Params where
  /-- OPMAP (R78). -/
  opMap        : OpMap
  /-- UNKNOWN_LIMIT, `none` when the counter is inactive (R85). -/
  unknownLimit : Option Nat
  /-- MEM_FILL (R41). -/
  memFill      : Byte
  /-- STACK_DEPTH (R36). -/
  stackDepth   : Nat
  /-- PARSE_INT (R117). -/
  parseInt     : List Byte → Word
  /-- RENDER_INT, on the host's side (R13). -/
  renderInt    : Word → List Byte

/-- The law every instance of PARSE_INT must satisfy (R117): it reads back what `Dec` writes. -/
def ParseLaw (parse : List Byte → Word) : Prop := ∀ v, parse (dec v) = v

/-- What the spec asks of an instantiation: an injective opcode map with EXIT = 0x00 (R78), a stack of at least one cell
(R7), a PARSE_INT that satisfies its law (R117). -/
structure Params.Legal (p : Params) : Prop where
  opMap    : p.opMap.Legal
  depth    : 1 ≤ p.stackDepth
  parseInt : ParseLaw p.parseInt

/-- The defaults of R6, with which `step` runs (DESIGN CHOICE, notes/assumptions/1.md to 6.md). -/
def Params.default : Params where
  opMap := OpMap.default
  unknownLimit := Config.unknownLimit
  memFill := Config.memFill
  stackDepth := Config.stackDepth
  parseInt := Sys2Proof.Machine.parseInt
  renderInt := Sys2Proof.Machine.renderInt

end Sys2Proof.Machine
end

