-- ==== Sys2Proof/Machine/Cycle.lean ====
section
/-! DEFINITION. The step cycle of `10_state.md` R33: wrap, opcode and operand fetch, dispatch; and the placing of an
instruction's bytes where the next step fetches them. -/

namespace Sys2Proof.Machine

/-- Step 1 of R33: a pc at or beyond MEM_SIZE becomes 0, not its remainder (R31). -/
def State.wrapPc (s : State) : State := if Config.memSize ≤ s.pc.toNat then s.setPc 0 else s

/-- Byte `k` of the instruction at pc: `mem[pc + k]` (R32). -/
def State.fetchByte (s : State) (k : Nat) : Byte := Memory.get s.mem (s.pc.toNat + k)

/-- Steps 2 to 5 of R33 under an opcode map: the instruction at pc, from the bytes up to the end of the address space
(`20_memory.md` R57). Memory is read anew at every step (R64). -/
def State.fetchUnder (m : OpMap) (s : State) : Except Reject Instr :=
  decodeUnder m s.fetchByte (Config.memSize - s.pc.toNat)

/-- The same under the default map of R78. -/
def State.fetch (s : State) : Except Reject Instr := s.fetchUnder OpMap.default

/-- What a step does with bytes that are no instruction: the unknown-opcode action (R85), or AddressOutOfRange of the first
operand or literal byte beyond the address space (R57, R210 item 1). -/
def rejectedUnder (limit : Option Nat) (s : State) : Reject → State
  | .unknownOpcode op => unknownOpcode limit op s
  | .truncated k => s.raise ⟨.addressOutOfRange, s.pc.toNat + k⟩

/-- The same under the default limit of R6. -/
def rejected (s : State) (r : Reject) : State := rejectedUnder Config.unknownLimit s r

/-- The meaning of an instruction under any parameters: STRING_TOINT looks at PARSE_INT (R117), PUSH and CALL at STACK_DEPTH
(R36), and no other instruction at any of them. -/
def execUnder (p : Params) (i : Instr) (s : State) : Outcome :=
  match i with
  | .stringToInt ra => stringToIntUnder p.parseInt ra s
  | .push ra => pushUnder p.stackDepth ra s
  | .call target => callUnder p.stackDepth target s
  | .exit | .nop | .ret | .intStore _ _ | .intPrint _ | .intToString _ | .intRandom _ | .jmp _ | .jmpz _ | .jmpnz _
  | .xor _ _ _ | .add _ _ _ | .sub _ _ _ | .mul _ _ _ | .div _ _ _ | .inc _ | .dec _ | .and _ _ _ | .or _ _ _
  | .stringStore _ _ | .stringPrint _ | .concat _ _ _ | .system _ | .cmpReg _ _ | .cmpImm _ _ | .cmpStr _ _
  | .isString _ | .isInteger _ | .mov _ _ | .peek _ _ | .poke _ _ | .memcpy _ _ _ | .pop _ => exec i s

/-- Steps 2 to 7 of R33 from a pc inside the address space. -/
def runAt (p : Params) (s : State) : Outcome :=
  match s.fetchUnder p.opMap with
  | .ok i => execUnder p i s
  | .error r => .next (rejectedUnder p.unknownLimit s r)

/-- One pass of the cycle of a machine with parameters `p`, fixed for the whole run (R20, R79, R235). Steps are taken only
in Running (R35). -/
def cycleUnder (p : Params) (s : State) : Outcome :=
  match s.status with
  | .running => runAt p s.wrapPc
  | .halted => .fault .halted
  | .faulted => .fault .faulted

/-- One pass of the cycle under the defaults of R6. -/
def cycle (s : State) : Outcome := cycleUnder Params.default s

/-- The first `count` bytes of an instruction given as a number (the numbering of `wordByte`). -/
def tableBytes (nbits w count : Nat) : List Byte := literalAt (wordByte nbits w) 0 count

/-- The instruction `w` of `nbits` bits in memory from address `a` upward, every byte after it 0 up to the end of the
address space, every byte below `a` as before. -/
def Memory.place (m : Memory) (a nbits w : Nat) : Memory :=
  Memory.setBytes (m.filter (fun c => c.1 < a)) a (tableBytes nbits w (min ((nbits + 7) / 8) (Config.memSize - a)))

end Sys2Proof.Machine
end

