-- ==== Sys2Proof/Machine/Step.lean ====
section
/-! DEFINITION. One step of the machine, and the placing of the instruction it runs next. -/

namespace Sys2Proof.Machine

/-- One step (`10_state.md` R33). -/
def step (s : State) : Host.Outcome State Fault Refusal := cycle s

/-- `s` with the instruction `w` where the next step fetches: at pc, or at 0 when pc is at or beyond MEM_SIZE (R31). The
fetch needs status Running (R35). Nothing else changes (notes/assumptions/19.md). -/
def State.withFetchWord (s : State) (nbits w : Nat) : State :=
  { s with mem := Memory.place s.mem s.wrapPc.pc.toNat nbits w, status := .running }

end Sys2Proof.Machine
end

