-- ==== Sys2Proof/Machine/Ports.lean ====
section
/-! DEFINITION. The abstract ports of `00_scope.md` R12 to R16: the load port with the reset of `70_reset_and_hazards.md`
R230, the host's rendering of the output port, the status port, the debug read port. None is reachable from a program. -/

namespace Sys2Proof.Machine

/-- The reset of R230 under parameters `p`, with an accepted image: the image from address 0, MEM_FILL beyond it,
STACK_DEPTH cells, and all else as in R46. -/
def State.loadUnder (p : Params) (image : List Byte) : State :=
  { State.reset with
    mem := Memory.setBytes (Memory.filled p.memFill) 0 image
    stack := List.replicate p.stackDepth 0 }

/-- The same under the defaults of R6. -/
def State.load (image : List Byte) : State := State.loadUnder Params.default image

/-- The load port (R12, R230): the machine the constructor builds, or a refusal by name: of the image (R231), of custom
opcode handlers (R86), of an error hook of the embedder's (R207), of the run-to-bound mode (R35, U9), of bounded texts
(R24). -/
def bootUnder (p : Params) (e : Config.Embedding) (image : List Byte) : Outcome :=
  if image.length = 0 then .refused .emptyImage
  else if Config.memSize < image.length then .refused .imageTooLong
  else if e.customOps ≠ [] then .refused .customOpcodes
  else if e.errorHook ≠ .enterFaulted then .refused .embedderHook
  else if e.runToBound = true then .refused .runToBound
  else if e.textMax ≠ none then .refused .boundedText
  else .next (State.loadUnder p image)

/-- The load port under the defaults of R6. -/
def boot (e : Config.Embedding) (image : List Byte) : Outcome := bootUnder Params.default e image

/-- The status port (R15): the status, and the fault record when Faulted. -/
def statusPort (s : State) : Status × Option FaultRecord :=
  (s.status, if s.status = .faulted then s.fault else none)

/-- What the debug read port shows: each register's kind and value and Z (R16), and the stack and memory, which with them
"stay visible on the debug port" (R100; notes/assumptions/18.md). -/
structure DebugView where
  regs  : List Value
  z     : Bool
  /-- The occupied cells, `stack[0]` first: a cell at or above `sp` is unobservable (R39). -/
  stack : List Word
  /-- The address space: `Memory.get` of it is the byte at each address. -/
  mem   : Memory
deriving DecidableEq, Repr

/-- The debug read port (R16, R100). Reading it changes no state; its text format is not specified. -/
def debugPort (s : State) : DebugView where
  regs := s.regs.toList
  z := s.z
  stack := s.stack.take s.sp
  mem := s.mem

/-- The bytes the host shows on standard output for an event under an instance of RENDER_INT: nothing is appended (R110,
R111); a System event goes to the host shell and writes none (R137, R5 (g)). No rule of the engine depends on it (R6). -/
def Event.shownUnder (render : Word → List Byte) : Event → List Byte
  | .outInt v => render v
  | .outText t => t
  | .system _ => []

/-- The same under the default RENDER_INT of R6. -/
def Event.shown (e : Event) : List Byte := e.shownUnder renderInt

end Sys2Proof.Machine
end

