-- ==== Sys2Proof/WellFormed.lean ====
section
/-! DEFINITION. Which instruction terms have an encoding, and which parameter values R7 allows. -/

namespace Sys2Proof

/-- The inline literal of an RT instruction, if it has one. -/
def Instr.literal? : Instr → Option (List Byte)
  | .stringStore _ t => some t
  | .cmpStr _ t => some t
  | _ => none

/-- An instruction has an encoding iff its literal length fits the 16-bit length field, 0 ≤ n ≤ 65535 (`30_encoding.md`
R74). Every register byte, immediate and target is encodable (R72, R75, R87). -/
def Instr.WellFormed (i : Instr) : Bool :=
  match i.literal? with
  | some t => decide (t.length ≤ 65535)
  | none => true

/-- What `00_scope.md` R7 asks of any instantiation of the parameters. -/
def Config.Legal (nreg memSize stackDepth : Nat) : Bool :=
  decide (memSize ≤ 65536) && decide (1 ≤ nreg) && decide (nreg ≤ 256) && decide (1 ≤ stackDepth)

end Sys2Proof
end

