-- ==== Sys2Proof/Safety.lean ====
section
/-! DEFINITION. Runs and how they end (`00_scope.md` R18, `60_exceptions.md` R204), the invariant of the machine, and the
terms the statements are written in. -/

namespace Sys2Proof.Machine

/-- A run is a sequence of steps from a state (R18). -/
inductive Runs (s : State) : State → Prop where
  | start : Runs s s
  | more {t u : State} : Runs s t → step t = .next u → Runs s u

/-- A run has ended: an EXIT was executed or a fatal condition raised (R18, R35). -/
def Ended (s : State) : Prop := s.status ≠ .running

/-- A successful end: Halted, with no fault on record ("a faulted state is never a final (successful) state", R204). -/
def SuccessfulEnd (s : State) : Prop := s.status = .halted ∧ s.fault = none

/-- The invariant of the machine. Memory has its canonical form; a fault is on record iff the status is Faulted (R42, R44,
R203); the record names the opcode pc holds, inside the address space (R31, R203); the stack has its cells and the pointer
is at most their number (R36); the unknown-opcode counter passes the limit by at most one, and only in a state faulted by
it (R85). -/
structure Inv (s : State) : Prop where
  mem_wf : Memory.wf s.mem = true
  fault_iff : s.status = .faulted ↔ s.fault.isSome = true
  fault_at : ∀ f, s.fault = some f → f.atPc = s.pc ∧ s.pc.toNat < Config.memSize
  cells : s.stack.length = Config.stackDepth
  sp_bound : s.sp ≤ Config.stackDepth
  unk_bound : ∀ l, Config.unknownLimit = some l →
    s.unk ≤ l ∨ (s.unk = l + 1 ∧ ∃ f, s.fault = some f ∧ f.cause = .unrecognizedOpcode)

/-! ## Faults, as the rules of the instructions list them -/

/-- `i` raises `c(info)` in `s`, precisely: the record and the status change, nothing else does (R203). -/
def Faults (i : Instr) (s : State) (c : Cause) (info : Nat) : Prop :=
  exec i s = .next { s with status := .faulted, fault := some { cause := c, atPc := s.pc, info := info } }

/-- The register byte is no register's (R72). -/
def badIndex (b : Byte) : Bool := decide (Config.nreg ≤ b.toNat)

/-- The register byte names a register that holds Text. -/
def holdsText (s : State) (b : Byte) : Bool :=
  match s.regs.toList[b.toNat]? with
  | some (.text _) => true
  | _ => false

/-- The register byte names a register that holds an Integer. -/
def holdsInt (s : State) (b : Byte) : Bool :=
  match s.regs.toList[b.toNat]? with
  | some (.int _) => true
  | _ => false

/-- The index checks of R210 item 2: the first of the register bytes `ops`, in encoding order, that is no register's is
reported. -/
def IndexFaults (i : Instr) (ops : List Byte) (s : State) : Prop :=
  ∀ b, ops.find? badIndex = some b → Faults i s .indexOutOfBounds b.toNat

/-- The kind checks of R210 item 3 for registers read through IntOf: when every index is good, the first of `srcs`, in
encoding order, that holds Text is reported. -/
def IntFaults (i : Instr) (ops srcs : List Byte) (s : State) : Prop :=
  ops.find? badIndex = none → ∀ b, srcs.find? (holdsText s) = some b → Faults i s .typeMismatch b.toNat

/-- The kind checks of R210 item 3 for registers read through TextOf. -/
def TextFaults (i : Instr) (ops srcs : List Byte) (s : State) : Prop :=
  ops.find? badIndex = none → ∀ b, srcs.find? (holdsInt s) = some b → Faults i s .typeMismatch b.toNat

/-- `bytes` is the encoding of `i`: the encoder writes it, and the decoder reads it back whatever follows. -/
def Encodes (i : Instr) (bytes : List Byte) : Prop := encode i = bytes ∧ ∀ rest, decode (bytes ++ rest) = .ok i

/-- The same for an instruction with operand bytes, and: where the address space ends inside it, the step raises
AddressOutOfRange of the first byte beyond (R57, R210 item 1). -/
def EncodedAs (i : Instr) (bytes : List Byte) : Prop :=
  encode i = bytes ∧ (∀ rest, decode (bytes ++ rest) = .ok i) ∧
  ∀ (s : State) (k : Nat), s.status = .running → 0 < k → k < bytes.length → s.pc.toNat + k = Config.memSize →
    (∀ j, j < k → bytes[j]? = some (Memory.get s.mem (s.pc.toNat + j))) →
    step s = .next { s with
      status := .faulted
      fault := some { cause := .addressOutOfRange, atPc := s.pc, info := s.pc.toNat + k } }

end Sys2Proof.Machine

namespace Sys2Proof

/-! ## Which instruction writes what -/

/-- The 14 writers of Z (`10_state.md` R28). -/
def Instr.writesZ : Instr → Bool
  | .add .. | .sub .. | .mul .. | .div .. | .xor .. | .and .. | .or .. | .inc .. | .dec ..
  | .cmpReg .. | .cmpImm .. | .cmpStr .. | .isString .. | .isInteger .. => true
  | .exit | .nop | .intStore .. | .stringStore .. | .intPrint .. | .stringPrint .. | .intToString .. | .stringToInt ..
  | .intRandom .. | .concat .. | .system .. | .jmp .. | .jmpz .. | .jmpnz .. | .mov .. | .peek .. | .poke ..
  | .memcpy .. | .push .. | .pop .. | .call .. | .ret => false

/-- The instructions that may assign pc themselves (R33, R143). -/
def Instr.assignsPc : Instr → Bool
  | .jmp .. | .jmpz .. | .jmpnz .. | .call .. | .ret => true
  | .exit | .nop | .intStore .. | .stringStore .. | .intPrint .. | .stringPrint .. | .intToString .. | .stringToInt ..
  | .intRandom .. | .add .. | .sub .. | .mul .. | .div .. | .xor .. | .and .. | .or .. | .inc .. | .dec .. | .concat ..
  | .system .. | .cmpReg .. | .cmpImm .. | .cmpStr .. | .isString .. | .isInteger .. | .mov .. | .peek .. | .poke ..
  | .memcpy .. | .push .. | .pop .. => false

/-- The register byte an instruction writes, if any (R28, R73). -/
def Instr.destination : Instr → Option Byte
  | .intStore a _ | .stringStore a _ | .intToString a | .stringToInt a | .intRandom a | .inc a | .dec a | .pop a => some a
  | .mov a _ | .peek a _ => some a
  | .add a _ _ | .sub a _ _ | .mul a _ _ | .div a _ _ | .xor a _ _ | .and a _ _ | .or a _ _ | .concat a _ _ => some a
  | .exit | .nop | .ret | .intPrint _ | .stringPrint _ | .system _ | .jmp _ | .jmpz _ | .jmpnz _ | .call _ | .cmpReg ..
  | .cmpImm .. | .cmpStr .. | .isString _ | .isInteger _ | .poke .. | .memcpy .. | .push _ => none

end Sys2Proof
end

