-- ==== Sys2Proof/Certificates/Slice0/Obligations.lean ====
section
/-! DEFINITION. The statements for the provers, from the numbered rules of spec/. A register byte `ra` names register `i`
when `ra.toNat = i.val`; any other byte is the index fault of the same statement (`IndexFaults`). A conclusion
`exec i s = .next { s with … }` is the instruction's whole effect: every field not named is unchanged. Each instruction's
statement also gives its encoding (`Encodes`), with its operand-fetch fault (`EncodedAs`), and its other exceptions (`Faults`). -/

open Sys2Proof Sys2Proof.Machine

/-! ## Reset and the load port -/

/-- R46: the state after reset with an accepted image, in every row of its table (the stack cells are unspecified), for
every MEM_FILL and STACK_DEPTH; the defaults of R6 are 0x00 and 1024. -/
def Obligations.BootLoadsImageAndResets : Prop :=
  (∀ e image, boot e image = bootUnder Params.default e image) ∧
  Params.default.memFill = 0x00#8 ∧ Params.default.stackDepth = 1024 ∧
  ∀ (p : Params) (image : List Byte), 1 ≤ image.length → image.length ≤ 65536 →
    ∃ t, bootUnder p Config.Embedding.default image = .next t ∧
      (∀ i, t.reg i = .int 0) ∧ t.z = false ∧ t.pc = 0 ∧
      (∀ a (h : a < image.length), Memory.get t.mem a = image[a]) ∧
      (∀ a, image.length ≤ a → a < 65536 → Memory.get t.mem a = p.memFill) ∧
      t.sp = 0 ∧ t.stack.length = p.stackDepth ∧ t.status = .running ∧ t.unk = 0 ∧ t.fault = none ∧ t.trace = []

/-- R231: the load is accepted iff the image is not empty and does not exceed the bound, which itself is accepted; a
refused load produces no state. -/
def Obligations.BootAcceptsExactlyTheLegalImages : Prop :=
  ∀ image : List Byte,
    ((∃ t, boot Config.Embedding.default image = .next t) ↔ 1 ≤ image.length ∧ image.length ≤ 65536) ∧
    (¬ (1 ≤ image.length ∧ image.length ≤ 65536) → ∃ r, boot Config.Embedding.default image = .refused r)

/-- R86, R207, U9: a configuration with custom opcodes, another error hook or a run-to-bound mode is refused; so is one with
bounded texts, by the model's choice (D18, notes/assumptions/7.md). -/
def Obligations.BootRefusesOtherConfigurations : Prop :=
  ∀ (e : Config.Embedding) (image : List Byte), e ≠ Config.Embedding.default → ∃ r, boot e image = .refused r

/-- R46 without an image: `State.reset`, over an address space in which every byte reads MEM_FILL (the model's choice of a
reset state with nothing loaded, notes/assumptions/12.md). -/
def Obligations.ResetStateHoldsTheResetValues : Prop :=
  (∀ i, State.reset.reg i = .int 0) ∧ State.reset.z = false ∧ State.reset.pc = 0 ∧
  (∀ a, Memory.get State.reset.mem a = 0x00#8) ∧ State.reset.sp = 0 ∧ State.reset.stack.length = 1024 ∧ State.reset.status = .running ∧
  State.reset.unk = 0 ∧ State.reset.fault = none ∧ State.reset.trace = []

/-! ## Encoding -/

/-- Every encodable instruction is read back from its own bytes, whatever bytes follow. -/
def Obligations.DecodeReadsBackEncode : Prop :=
  ∀ (i : Instr) (rest : List Byte), i.WellFormed = true → decode (encode i ++ rest) = .ok i

/-- Whatever the decoder accepts is encodable, and begins with that instruction's own bytes: no byte sequence has two
meanings and no operand bit is dropped. -/
def Obligations.DecodedBytesAreTheEncoding : Prop :=
  ∀ (bs : List Byte) (i : Instr), decode bs = .ok i → i.WellFormed = true ∧ ∃ rest, bs = encode i ++ rest

/-- R50: every two-byte quantity of the instruction stream, an immediate, a jump or call target, a literal length, is
`lo + 256 * hi` with the low byte first. -/
def Obligations.SixteenBitOperandsAreLowByteFirst : Prop :=
  ∀ (ra lo hi : Byte) (rest : List Byte), ∃ h : Half, h.toNat = lo.toNat + 256 * hi.toNat ∧
    decode (0x01 :: ra :: lo :: hi :: rest) = .ok (.intStore ra h) ∧
    decode (0x41 :: ra :: lo :: hi :: rest) = .ok (.cmpImm ra h) ∧
    decode (0x10 :: lo :: hi :: rest) = .ok (.jmp h) ∧
    decode (0x11 :: lo :: hi :: rest) = .ok (.jmpz h) ∧
    decode (0x12 :: lo :: hi :: rest) = .ok (.jmpnz h) ∧
    decode (0x73 :: lo :: hi :: rest) = .ok (.call h) ∧
    (h.toNat ≤ rest.length →
      decode (0x30 :: ra :: lo :: hi :: rest) = .ok (.stringStore ra (rest.take h.toNat)) ∧
      decode (0x42 :: ra :: lo :: hi :: rest) = .ok (.cmpStr ra (rest.take h.toNat)))

/-- R79, R81: the decoder reports an unknown opcode for exactly the byte values outside the map, whatever follows. -/
def Obligations.UnknownOpcodesAreExactlyTheUnmappedBytes : Prop :=
  ∀ (op : Byte) (rest : List Byte), decode (op :: rest) = .error (.unknownOpcode op) ↔
    (0x05 ≤ op.toNat ∧ op.toNat ≤ 0x0F) ∨ (0x13 ≤ op.toNat ∧ op.toNat ≤ 0x1F) ∨
    (0x29 ≤ op.toNat ∧ op.toNat ≤ 0x2F) ∨ (0x35 ≤ op.toNat ∧ op.toNat ≤ 0x3F) ∨
    (0x45 ≤ op.toNat ∧ op.toNat ≤ 0x4F) ∨ (0x52 ≤ op.toNat ∧ op.toNat ≤ 0x5F) ∨
    (0x63 ≤ op.toNat ∧ op.toNat ≤ 0x6F) ∨ (0x74 ≤ op.toNat ∧ op.toNat ≤ 0xFF)

/-- Words written out from the examples of the instruction files decode to the instructions they stand for. -/
def Obligations.ExampleWordsDecode : Prop :=
  decode [0x01, 0x01, 0x34, 0x12] = .ok (.intStore 1 0x1234) ∧
  decode [0x30, 0x00, 0x02, 0x00, 0x61, 0x62] = .ok (.stringStore 0 [0x61, 0x62]) ∧
  decode [0x21, 0x00, 0x01, 0x02] = .ok (.add 0 1 2) ∧
  decode [0x61, 0x00, 0x01] = .ok (.poke 0 1) ∧
  decode [0x73, 0x08, 0x00] = .ok (.call 8)

/-! ## The step cycle -/

/-- R33 steps 2 to 7: from a pc inside the address space, a Running machine whose bytes from pc on decode to `i` runs `i`;
this step adds nothing around exec (its meaning advances pc itself). -/
def Obligations.StepRunsTheDecodedInstruction : Prop :=
  ∀ (s : State) (i : Instr), s.status = .running → s.pc.toNat < 65536 →
    decodeWith (fun k => Memory.get s.mem (s.pc.toNat + k)) (65536 - s.pc.toNat) = .ok i → step s = exec i s

/-- A Running machine at whose pc the bytes of an encodable instruction stand, all inside the address space, runs it. -/
def Obligations.StepRunsTheEncodedInstruction : Prop :=
  ∀ (s : State) (i : Instr), s.status = .running → i.WellFormed = true →
    s.pc.toNat + (encode i).length ≤ 65536 →
    (∀ j, j < (encode i).length → (encode i)[j]? = some (Memory.get s.mem (s.pc.toNat + j))) → step s = exec i s

/-- R31, R57: an opcode fetch at or beyond the bound wraps to 0, whatever the excess; an operand or literal byte there
raises AddressOutOfRange of the first such address, and nothing else changes. -/
def Obligations.OpcodeFetchWrapsAndOperandFetchFaults : Prop :=
  (∀ s : State, 65536 ≤ s.pc.toNat → step s = step { s with pc := 0 }) ∧
  ∀ (s : State) (i : Instr) (k : Nat), s.status = .running → i.WellFormed = true →
    0 < k → k < (encode i).length → 65536 ≤ s.pc.toNat + k → (∀ j, j < k → s.pc.toNat + j < 65536) →
    (∀ j, j < k → (encode i)[j]? = some (Memory.get s.mem (s.pc.toNat + j))) →
    step s = .next { s with
      status := .faulted
      fault := some { cause := .addressOutOfRange, atPc := s.pc, info := s.pc.toNat + k } }

/-- R85, R81: an opcode byte outside the map counts and is skipped up to the limit of 20, and faults above it with the
count kept; with an inactive counter it is skipped for ever. -/
def Obligations.UnknownOpcodesCountThenFault : Prop :=
  ∀ (s : State) (op : Byte), op = Memory.get s.mem s.pc.toNat → s.pc.toNat < 65536 → s.status = .running →
    (∀ i : Instr, i.opcode ≠ op) →
    (s.unk < 20 → step s = .next { s with unk := s.unk + 1, pc := s.pc + 1 }) ∧
    (20 ≤ s.unk → step s = .next { s with
      unk := s.unk + 1
      status := .faulted
      fault := some { cause := .unrecognizedOpcode, atPc := s.pc, info := op.toNat } }) ∧
    unknownOpcode none op s = { s with unk := s.unk + 1, pc := s.pc + 1 }

/-- R35: steps are taken only in Running; only an EXIT leads to Halted; the initial status is Running. -/
def Obligations.StepsOnlyInRunningAndHaltsOnlyByExit : Prop :=
  (∀ s : State, s.status ≠ .running → ∀ t, step s ≠ .next t) ∧
  (∀ s t : State, step s = .next t → t.status = .halted → s.wrapPc.fetch = .ok .exit) ∧
  State.reset.status = .running

/-- R33: a Running machine always completes its step, by an instruction, an unknown opcode or a fault entry. -/
def Obligations.RunningMachinesAlwaysStep : Prop :=
  ∀ s : State, s.status = .running → ∃ t, step s = .next t

/-! ## The instructions -/

/-- R100: the status becomes Halted, pc ends one past the EXIT byte, no further step follows, and registers, Z, stack and
memory stay visible on the debug port. That the port shows of the stack the occupied cells only is the model's choice, from
R39 (notes/assumptions/18.md). -/
def Obligations.ExitHaltsAndAdvances : Prop :=
  Encodes .exit [0x00] ∧ ∀ s : State, exec .exit s = .next { s with status := .halted, pc := s.pc + 1 } ∧
    (∀ t, step { s with status := .halted, pc := s.pc + 1 } ≠ .next t) ∧
    debugPort { s with status := .halted, pc := s.pc + 1 } = debugPort s ∧
    (∀ i : Fin 10, (debugPort s).regs[i.val]? = some (s.reg i)) ∧ (debugPort s).z = s.z ∧
    (∀ k (h : k < s.stack.length), (debugPort s).stack[k]? = if k < s.sp then some s.stack[k] else none) ∧
    ∀ a, Memory.get (debugPort s).mem a = Memory.get s.mem a

/-- R101, with "NOP differs from an unknown opcode only in that it does not increment `unk`". -/
def Obligations.NopOnlyAdvances : Prop :=
  Encodes .nop [0x50] ∧ ∀ s : State, exec .nop s = .next { s with pc := s.pc + 1 } ∧
    ∀ op, s.unk < 20 → unknownOpcode (some 20) op s = { s with pc := s.pc + 1, unk := s.unk + 1 }

/-- R105. -/
def Obligations.IntStoreWritesTheImmediate : Prop :=
  ∀ (ra lo hi : Byte) (imm : Half) (s : State), imm.toNat = lo.toNat + 256 * hi.toNat →
    EncodedAs (.intStore ra imm) [0x01, ra, lo, hi] ∧
    (∀ (d : Fin 10) (v : Word), ra.toNat = d.val → v.toNat = imm.toNat →
      exec (.intStore ra imm) s = .next { s with regs := s.regs.set d.val (.int v) d.isLt, pc := s.pc + 4 }) ∧
    IndexFaults (.intStore ra imm) [ra] s

/-- R106. -/
def Obligations.StringStoreWritesTheLiteral : Prop :=
  ∀ (ra lo hi : Byte) (text : List Byte) (s : State), text.length = lo.toNat + 256 * hi.toNat →
    EncodedAs (.stringStore ra text) ([0x30, ra, lo, hi] ++ text) ∧
    (∀ d : Fin 10, ra.toNat = d.val →
      exec (.stringStore ra text) s = .next { s with
        regs := s.regs.set d.val (.text text) d.isLt
        pc := s.pc + BitVec.ofNat 32 (4 + text.length) }) ∧
    IndexFaults (.stringStore ra text) [ra] s

/-- R110, R111: the print instructions append one event and change nothing else but pc. -/
def Obligations.PrintsAppendTheirEvent : Prop :=
  ∀ (ra : Byte) (s : State),
    EncodedAs (.intPrint ra) [0x02, ra] ∧ EncodedAs (.stringPrint ra) [0x31, ra] ∧
    (∀ (i : Fin 10) (v : Word), ra.toNat = i.val → s.reg i = .int v →
      exec (.intPrint ra) s = .next { s with trace := s.trace ++ [.outInt v], pc := s.pc + 2 }) ∧
    (∀ (i : Fin 10) (t : List Byte), ra.toNat = i.val → s.reg i = .text t →
      exec (.stringPrint ra) s = .next { s with trace := s.trace ++ [.outText t], pc := s.pc + 2 }) ∧
    IndexFaults (.intPrint ra) [ra] s ∧ IntFaults (.intPrint ra) [ra] [ra] s ∧
    IndexFaults (.stringPrint ra) [ra] s ∧ TextFaults (.stringPrint ra) [ra] [ra] s

/-- R137: SYSTEM appends its command and changes nothing else but pc. -/
def Obligations.SystemAppendsItsCommand : Prop :=
  ∀ (ra : Byte) (s : State),
    EncodedAs (.system ra) [0x33, ra] ∧
    (∀ (i : Fin 10) (t : List Byte), ra.toNat = i.val → s.reg i = .text t →
      exec (.system ra) s = .next { s with trace := s.trace ++ [.system t], pc := s.pc + 2 }) ∧
    IndexFaults (.system ra) [ra] s ∧ TextFaults (.system ra) [ra] [ra] s

/-- R112: the register becomes `Dec` of its integer; Z is unchanged. -/
def Obligations.IntToStringWritesTheDecimalText : Prop :=
  ∀ (ra : Byte) (s : State),
    EncodedAs (.intToString ra) [0x03, ra] ∧
    (∀ (i : Fin 10) (v : Word), ra.toNat = i.val → s.reg i = .int v →
      exec (.intToString ra) s = .next { s with regs := s.regs.set i.val (.text (dec v)) i.isLt, pc := s.pc + 2 }) ∧
    IndexFaults (.intToString ra) [ra] s ∧ IntFaults (.intToString ra) [ra] [ra] s

/-- R113, R117: the register becomes PARSE_INT of its text, and no content of the text faults; Z is unchanged. Under any
parameters the instance of PARSE_INT is theirs. -/
def Obligations.StringToIntWritesTheParsedValue : Prop :=
  ∀ (ra : Byte) (s : State),
    EncodedAs (.stringToInt ra) [0x34, ra] ∧
    (∀ (i : Fin 10) (t : List Byte), ra.toNat = i.val → s.reg i = .text t →
      exec (.stringToInt ra) s = .next { s with regs := s.regs.set i.val (.int (parseInt t)) i.isLt, pc := s.pc + 2 }) ∧
    IndexFaults (.stringToInt ra) [ra] s ∧ TextFaults (.stringToInt ra) [ra] [ra] s ∧
    ∀ p : Params,
      (∀ (i : Fin 10) (t : List Byte), ra.toNat = i.val → s.reg i = .text t →
        execUnder p (.stringToInt ra) s =
          .next { s with regs := s.regs.set i.val (.int (p.parseInt t)) i.isLt, pc := s.pc + 2 }) ∧
      (10 ≤ ra.toNat → execUnder p (.stringToInt ra) s = .next { s with
        status := .faulted, fault := some { cause := .indexOutOfBounds, atPc := s.pc, info := ra.toNat } }) ∧
      (∀ (i : Fin 10) (v : Word), ra.toNat = i.val → s.reg i = .int v →
        execUnder p (.stringToInt ra) s = .next { s with
          status := .faulted, fault := some { cause := .typeMismatch, atPc := s.pc, info := ra.toNat } })

/-- R114: the register becomes the next draw, whatever it held, and the draw is consumed. `Config.draw` is a free value, so
this holds for every sequence of draws; `draws` is the model's own count of them (notes/assumptions/8.md). -/
def Obligations.IntRandomWritesADraw : Prop :=
  ∀ (ra : Byte) (s : State),
    EncodedAs (.intRandom ra) [0x04, ra] ∧
    (∀ (i : Fin 10), ra.toNat = i.val → ∃ v : Word, v.toNat = (Config.draw s.draws).toNat ∧ v.toNat ≤ 65535 ∧
      exec (.intRandom ra) s = .next { s with
        regs := s.regs.set i.val (.int v) i.isLt
        pc := s.pc + 2
        draws := s.draws + 1 }) ∧
    IndexFaults (.intRandom ra) [ra] s

/-- R122, R123, R124: sum, difference and product modulo 2^32. -/
def Obligations.AddSubMulWriteTheResultAndZ : Prop :=
  ∀ (ra rb rc : Byte) (s : State),
    EncodedAs (.add ra rb rc) [0x21, ra, rb, rc] ∧ EncodedAs (.sub ra rb rc) [0x22, ra, rb, rc] ∧
    EncodedAs (.mul ra rb rc) [0x23, ra, rb, rc] ∧
    (∀ (d i j : Fin 10) (a b r : Word), ra.toNat = d.val → rb.toNat = i.val → rc.toNat = j.val →
      s.reg i = .int a → s.reg j = .int b →
      (r.toNat = (a.toNat + b.toNat) % 2 ^ 32 → exec (.add ra rb rc) s = .next { s with
        regs := s.regs.set d.val (.int r) d.isLt, z := decide (r.toNat = 0), pc := s.pc + 4 }) ∧
      ((r.toNat : Int) = ((a.toNat : Int) - (b.toNat : Int)) % 2 ^ 32 → exec (.sub ra rb rc) s = .next { s with
        regs := s.regs.set d.val (.int r) d.isLt, z := decide (r.toNat = 0), pc := s.pc + 4 }) ∧
      (r.toNat = (a.toNat * b.toNat) % 2 ^ 32 → exec (.mul ra rb rc) s = .next { s with
        regs := s.regs.set d.val (.int r) d.isLt, z := decide (r.toNat = 0), pc := s.pc + 4 })) ∧
    ∀ I ∈ [Instr.add ra rb rc, .sub ra rb rc, .mul ra rb rc],
      IndexFaults I [ra, rb, rc] s ∧ IntFaults I [ra, rb, rc] [rb, rc] s

/-- R125: the unsigned quotient, or DivisionByZero after both kind checks. -/
def Obligations.DivWritesTheQuotientOrFaults : Prop :=
  ∀ (ra rb rc : Byte) (s : State),
    EncodedAs (.div ra rb rc) [0x24, ra, rb, rc] ∧
    (∀ (d i j : Fin 10) (a b : Word), ra.toNat = d.val → rb.toNat = i.val → rc.toNat = j.val →
      s.reg i = .int a → s.reg j = .int b →
      (∀ r : Word, b.toNat ≠ 0 → r.toNat = a.toNat / b.toNat → exec (.div ra rb rc) s = .next { s with
        regs := s.regs.set d.val (.int r) d.isLt, z := decide (r.toNat = 0), pc := s.pc + 4 }) ∧
      (b.toNat = 0 → Faults (.div ra rb rc) s .divisionByZero 0)) ∧
    IndexFaults (.div ra rb rc) [ra, rb, rc] s ∧ IntFaults (.div ra rb rc) [ra, rb, rc] [rb, rc] s

/-- R126, R127, R128: bit by bit over 32 bits. -/
def Obligations.BitwiseOperationsWriteTheResultAndZ : Prop :=
  ∀ (ra rb rc : Byte) (s : State),
    EncodedAs (.xor ra rb rc) [0x20, ra, rb, rc] ∧ EncodedAs (.and ra rb rc) [0x27, ra, rb, rc] ∧
    EncodedAs (.or ra rb rc) [0x28, ra, rb, rc] ∧
    (∀ (d i j : Fin 10) (a b r : Word), ra.toNat = d.val → rb.toNat = i.val → rc.toNat = j.val →
      s.reg i = .int a → s.reg j = .int b →
      ((∀ k, r.getLsbD k = (a.getLsbD k).xor (b.getLsbD k)) → exec (.xor ra rb rc) s = .next { s with
        regs := s.regs.set d.val (.int r) d.isLt, z := decide (r.toNat = 0), pc := s.pc + 4 }) ∧
      ((∀ k, r.getLsbD k = (a.getLsbD k && b.getLsbD k)) → exec (.and ra rb rc) s = .next { s with
        regs := s.regs.set d.val (.int r) d.isLt, z := decide (r.toNat = 0), pc := s.pc + 4 }) ∧
      ((∀ k, r.getLsbD k = (a.getLsbD k || b.getLsbD k)) → exec (.or ra rb rc) s = .next { s with
        regs := s.regs.set d.val (.int r) d.isLt, z := decide (r.toNat = 0), pc := s.pc + 4 })) ∧
    ∀ I ∈ [Instr.xor ra rb rc, .and ra rb rc, .or ra rb rc],
      IndexFaults I [ra, rb, rc] s ∧ IntFaults I [ra, rb, rc] [rb, rc] s

/-- R129, R130: the register plus or minus one, modulo 2^32. -/
def Obligations.IncDecWriteTheResultAndZ : Prop :=
  ∀ (ra : Byte) (s : State),
    EncodedAs (.inc ra) [0x25, ra] ∧ EncodedAs (.dec ra) [0x26, ra] ∧
    (∀ (i : Fin 10) (a r : Word), ra.toNat = i.val → s.reg i = .int a →
      (r.toNat = (a.toNat + 1) % 2 ^ 32 → exec (.inc ra) s = .next { s with
        regs := s.regs.set i.val (.int r) i.isLt, z := decide (r.toNat = 0), pc := s.pc + 2 }) ∧
      ((r.toNat : Int) = ((a.toNat : Int) - 1) % 2 ^ 32 → exec (.dec ra) s = .next { s with
        regs := s.regs.set i.val (.int r) i.isLt, z := decide (r.toNat = 0), pc := s.pc + 2 })) ∧
    ∀ I ∈ [Instr.inc ra, .dec ra], IndexFaults I [ra] s ∧ IntFaults I [ra] [ra] s

/-- R135: the bytes of the first source, then those of the second, of any length; Z is unchanged. -/
def Obligations.ConcatWritesBothTexts : Prop :=
  ∀ (ra rb rc : Byte) (s : State),
    EncodedAs (.concat ra rb rc) [0x32, ra, rb, rc] ∧
    (∀ (d i j : Fin 10) (t u : List Byte), ra.toNat = d.val → rb.toNat = i.val → rc.toNat = j.val →
      s.reg i = .text t → s.reg j = .text u → exec (.concat ra rb rc) s = .next { s with
        regs := s.regs.set d.val (.text (t ++ u)) d.isLt, pc := s.pc + 4 }) ∧
    IndexFaults (.concat ra rb rc) [ra, rb, rc] s ∧ TextFaults (.concat ra rb rc) [ra, rb, rc] [rb, rc] s

/-- R140, R141, R142: JMP always branches, JMPZ iff Z is set, JMPNZ iff Z is not set; nothing but pc changes. -/
def Obligations.JumpsBranchOnZ : Prop :=
  ∀ (lo hi : Byte) (target : Half) (s : State) (a : Word), target.toNat = lo.toNat + 256 * hi.toNat →
    a.toNat = target.toNat →
    EncodedAs (.jmp target) [0x10, lo, hi] ∧ EncodedAs (.jmpz target) [0x11, lo, hi] ∧
    EncodedAs (.jmpnz target) [0x12, lo, hi] ∧
    exec (.jmp target) s = .next { s with pc := a } ∧
    (s.z = true → exec (.jmpz target) s = .next { s with pc := a }) ∧
    (s.z = false → exec (.jmpz target) s = .next { s with pc := s.pc + 3 }) ∧
    (s.z = false → exec (.jmpnz target) s = .next { s with pc := a }) ∧
    (s.z = true → exec (.jmpnz target) s = .next { s with pc := s.pc + 3 })

/-- R145: Z is true iff both registers hold the same kind and equal values; no TypeMismatch. -/
def Obligations.CmpRegSetsZ : Prop :=
  ∀ (ra rb : Byte) (s : State),
    EncodedAs (.cmpReg ra rb) [0x40, ra, rb] ∧
    (∀ i j : Fin 10, ra.toNat = i.val → rb.toNat = j.val →
      exec (.cmpReg ra rb) s = .next { s with z := decide (s.reg i = s.reg j), pc := s.pc + 3 }) ∧
    IndexFaults (.cmpReg ra rb) [ra, rb] s

/-- R146: Z is true iff the register holds an Integer whose 32-bit value is the zero-extended immediate. -/
def Obligations.CmpImmSetsZ : Prop :=
  ∀ (ra lo hi : Byte) (imm : Half) (s : State), imm.toNat = lo.toNat + 256 * hi.toNat →
    EncodedAs (.cmpImm ra imm) [0x41, ra, lo, hi] ∧
    (∀ i : Fin 10, ra.toNat = i.val →
      (∀ a : Word, s.reg i = .int a →
        exec (.cmpImm ra imm) s = .next { s with z := decide (a.toNat = imm.toNat), pc := s.pc + 4 }) ∧
      (∀ t : List Byte, s.reg i = .text t →
        exec (.cmpImm ra imm) s = .next { s with z := false, pc := s.pc + 4 })) ∧
    IndexFaults (.cmpImm ra imm) [ra] s

/-- R147: Z is true iff the register holds exactly the literal's bytes; the literal is skipped in every case. -/
def Obligations.CmpStrSetsZ : Prop :=
  ∀ (ra lo hi : Byte) (text : List Byte) (s : State), text.length = lo.toNat + 256 * hi.toNat →
    EncodedAs (.cmpStr ra text) ([0x42, ra, lo, hi] ++ text) ∧
    (∀ i : Fin 10, ra.toNat = i.val →
      exec (.cmpStr ra text) s = .next { s with
        z := decide (s.reg i = .text text)
        pc := s.pc + BitVec.ofNat 32 (4 + text.length) }) ∧
    IndexFaults (.cmpStr ra text) [ra] s

/-- R148, R149: Z takes the kind asked for; the two predicates give opposite Z. -/
def Obligations.TypePredicatesSetZ : Prop :=
  ∀ (ra : Byte) (s : State),
    EncodedAs (.isString ra) [0x43, ra] ∧ EncodedAs (.isInteger ra) [0x44, ra] ∧
    (∀ i : Fin 10, ra.toNat = i.val →
      (∀ t : List Byte, s.reg i = .text t →
        exec (.isString ra) s = .next { s with z := true, pc := s.pc + 2 } ∧
        exec (.isInteger ra) s = .next { s with z := false, pc := s.pc + 2 }) ∧
      (∀ v : Word, s.reg i = .int v →
        exec (.isString ra) s = .next { s with z := false, pc := s.pc + 2 } ∧
        exec (.isInteger ra) s = .next { s with z := true, pc := s.pc + 2 })) ∧
    IndexFaults (.isString ra) [ra] s ∧ IndexFaults (.isInteger ra) [ra] s

/-- R155: the whole Value is copied, kind included, and Z is unchanged. -/
def Obligations.MovCopiesTheValue : Prop :=
  ∀ (ra rb : Byte) (s : State),
    EncodedAs (.mov ra rb) [0x51, ra, rb] ∧
    (∀ d i : Fin 10, ra.toNat = d.val → rb.toNat = i.val →
      exec (.mov ra rb) s = .next { s with regs := s.regs.set d.val (s.reg i) d.isLt, pc := s.pc + 3 }) ∧
    IndexFaults (.mov ra rb) [ra, rb] s

/-- R160: the byte at the address in `rb`, zero-extended, into `ra`; beyond the address space, AddressOutOfRange. -/
def Obligations.PeekReadsTheByte : Prop :=
  ∀ (ra rb : Byte) (s : State),
    EncodedAs (.peek ra rb) [0x60, ra, rb] ∧
    (∀ (d i : Fin 10) (a : Word), ra.toNat = d.val → rb.toNat = i.val → s.reg i = .int a →
      (∀ v : Word, a.toNat < 65536 → v.toNat = (Memory.get s.mem a.toNat).toNat →
        exec (.peek ra rb) s = .next { s with regs := s.regs.set d.val (.int v) d.isLt, pc := s.pc + 3 }) ∧
      (65536 ≤ a.toNat → Faults (.peek ra rb) s .addressOutOfRange a.toNat)) ∧
    IndexFaults (.peek ra rb) [ra, rb] s ∧ IntFaults (.peek ra rb) [ra, rb] [rb] s

/-- R161: the low 8 bits of `ra` go to the address in `rb`, every other byte reads as before, and nothing else but pc
changes; beyond the address space, AddressOutOfRange. -/
def Obligations.PokeWritesTheByte : Prop :=
  ∀ (ra rb : Byte) (s : State),
    EncodedAs (.poke ra rb) [0x61, ra, rb] ∧
    (∀ (i j : Fin 10) (v a : Word), ra.toNat = i.val → rb.toNat = j.val → s.reg i = .int v → s.reg j = .int a →
      (a.toNat < 65536 → ∃ m : Memory, exec (.poke ra rb) s = .next { s with mem := m, pc := s.pc + 3 } ∧
        (Memory.get m a.toNat).toNat = v.toNat % 256 ∧
        ∀ x, x ≠ a.toNat → Memory.get m x = Memory.get s.mem x) ∧
      (65536 ≤ a.toNat → Faults (.poke ra rb) s .addressOutOfRange a.toNat)) ∧
    IndexFaults (.poke ra rb) [ra, rb] s ∧ IntFaults (.poke ra rb) [ra, rb] [ra, rb] s

/-- R162: the ascending copy. Outside the destination range every byte reads as before. When the destination is not inside
the source range above its base, it receives the source's original bytes; when it is, the first `d - s` bytes of the source
are repeated through it. A range beyond the address space faults with its base, the destination first; `n = 0` checks
neither and copies nothing. -/
def Obligations.MemcpyCopiesAscending : Prop :=
  ∀ (ra rb rc : Byte) (s : State),
    EncodedAs (.memcpy ra rb rc) [0x62, ra, rb, rc] ∧
    (∀ (i j k : Fin 10) (d a n : Word), ra.toNat = i.val → rb.toNat = j.val → rc.toNat = k.val →
      s.reg i = .int d → s.reg j = .int a → s.reg k = .int n →
      (n.toNat = 0 ∨ (d.toNat + n.toNat ≤ 65536 ∧ a.toNat + n.toNat ≤ 65536) →
        ∃ m : Memory, exec (.memcpy ra rb rc) s = .next { s with mem := m, pc := s.pc + 4 } ∧
          (∀ x, x < d.toNat ∨ d.toNat + n.toNat ≤ x → Memory.get m x = Memory.get s.mem x) ∧
          (d.toNat ≤ a.toNat ∨ a.toNat + n.toNat ≤ d.toNat →
            ∀ x, x < n.toNat → Memory.get m (d.toNat + x) = Memory.get s.mem (a.toNat + x)) ∧
          (a.toNat < d.toNat → d.toNat < a.toNat + n.toNat →
            ∀ x, x < n.toNat →
              Memory.get m (d.toNat + x) = Memory.get s.mem (a.toNat + x % (d.toNat - a.toNat)))) ∧
      (0 < n.toNat → 65536 < d.toNat + n.toNat → Faults (.memcpy ra rb rc) s .addressOutOfRange d.toNat) ∧
      (0 < n.toNat → d.toNat + n.toNat ≤ 65536 → 65536 < a.toNat + n.toNat →
        Faults (.memcpy ra rb rc) s .addressOutOfRange a.toNat)) ∧
    IndexFaults (.memcpy ra rb rc) [ra, rb, rc] s ∧ IntFaults (.memcpy ra rb rc) [ra, rb, rc] [ra, rb, rc] s

/-- R170: the register's 32-bit value is stored in the first free cell, and `sp` goes up by one; a full stack faults. -/
def Obligations.PushStoresThenIncrements : Prop :=
  ∀ (ra : Byte) (s : State),
    EncodedAs (.push ra) [0x70, ra] ∧
    (∀ (i : Fin 10) (v : Word), ra.toNat = i.val → s.reg i = .int v →
      (s.sp < 1024 → exec (.push ra) s = .next { s with
        stack := s.stack.set s.sp v, sp := s.sp + 1, pc := s.pc + 2 }) ∧
      (s.sp = 1024 → Faults (.push ra) s .stackOverflow 0) ∧
      ∀ p : Params,
        (s.sp < p.stackDepth → execUnder p (.push ra) s = .next { s with
          stack := s.stack.set s.sp v, sp := s.sp + 1, pc := s.pc + 2 }) ∧
        (s.sp = p.stackDepth → execUnder p (.push ra) s = .next { s with
          status := .faulted, fault := some { cause := .stackOverflow, atPc := s.pc, info := 0 } })) ∧
    IndexFaults (.push ra) [ra] s ∧ IntFaults (.push ra) [ra] [ra] s

/-- R171: `sp` goes down by one and the register takes the cell it then counts, whatever it held; an empty stack faults,
after the index check. -/
def Obligations.PopDecrementsThenReads : Prop :=
  ∀ (ra : Byte) (s : State),
    EncodedAs (.pop ra) [0x71, ra] ∧
    (∀ d : Fin 10, ra.toNat = d.val →
      (∀ (n : Nat) (w : Word), s.sp = n + 1 → s.stack[n]? = some w → exec (.pop ra) s = .next { s with
        regs := s.regs.set d.val (.int w) d.isLt, sp := n, pc := s.pc + 2 }) ∧
      (s.sp = 0 → Faults (.pop ra) s .stackUnderflow 0)) ∧
    IndexFaults (.pop ra) [ra] s

/-- R175: the address after the call is pushed, then pc is the target; on a full stack nothing is pushed and pc stays. -/
def Obligations.CallPushesTheReturnAddress : Prop :=
  ∀ (lo hi : Byte) (target : Half) (s : State) (a : Word), target.toNat = lo.toNat + 256 * hi.toNat →
    a.toNat = target.toNat →
    EncodedAs (.call target) [0x73, lo, hi] ∧
    (s.sp < 1024 → exec (.call target) s = .next { s with
      stack := s.stack.set s.sp (s.pc + 3), sp := s.sp + 1, pc := a }) ∧
    (s.sp = 1024 → Faults (.call target) s .stackOverflow 0) ∧
    (∀ p : Params,
      (s.sp < p.stackDepth → execUnder p (.call target) s = .next { s with
        stack := s.stack.set s.sp (s.pc + 3), sp := s.sp + 1, pc := a }) ∧
      (s.sp = p.stackDepth → execUnder p (.call target) s = .next { s with
        status := .faulted, fault := some { cause := .stackOverflow, atPc := s.pc, info := 0 } })) ∧
    (s.pc.toNat < 65536 → (s.pc + 3).toNat = s.pc.toNat + 3)

/-- R176: pc takes the popped pattern, of any 32-bit value; an empty stack faults. -/
def Obligations.RetJumpsToThePoppedValue : Prop :=
  Encodes .ret [0x72] ∧ ∀ s : State,
    (∀ (n : Nat) (w : Word), s.sp = n + 1 → s.stack[n]? = some w →
      exec .ret s = .next { s with sp := n, pc := w }) ∧
    (s.sp = 0 → Faults .ret s .stackUnderflow 0)

/-! ## Conversions -/

/-- R115: `Dec(v)` is made of digit bytes, has the value `v`, is 1 to 10 bytes long, and has no leading zero but for
`Dec(0)`. -/
def Obligations.DecIsTheShortestNumeral : Prop :=
  ∀ v : Word,
    (∀ b ∈ dec v, 0x30 ≤ b.toNat ∧ b.toNat ≤ 0x39) ∧
    (dec v).foldl (fun n b => 10 * n + (b.toNat - 0x30)) 0 = v.toNat ∧
    1 ≤ (dec v).length ∧ (dec v).length ≤ 10 ∧
    ((dec v).head? = some 0x30#8 → v = 0) ∧ dec 0 = [0x30#8]

/-- R117: the law of PARSE_INT, which its default instance satisfies, and that instance: the value of the longest leading
run of digits, 0 when there is none, modulo 2^32. -/
def Obligations.ParseIntInvertsDec : Prop :=
  (∀ v : Word, parseInt (dec v) = v) ∧ Params.default.parseInt = parseInt ∧ Params.default.Legal ∧
  ∀ (d rest : List Byte), (∀ b ∈ d, 0x30 ≤ b.toNat ∧ b.toNat ≤ 0x39) →
    (∀ b, rest.head? = some b → b.toNat < 0x30 ∨ 0x39 < b.toNat) →
    (parseInt (d ++ rest)).toNat = d.foldl (fun n b => 10 * n + (b.toNat - 0x30)) 0 % 2 ^ 32

/-! ## Rules about the whole machine -/

/-- R28: no instruction but the 14 writers changes Z, and neither does a fault or an unknown opcode. -/
def Obligations.OnlyTheWritersChangeZ : Prop :=
  ∀ s t : State, step s = .next t →
    (t.status = .faulted ∨ ∀ i, s.wrapPc.fetch = .ok i → i.writesZ = false) → t.z = s.z

/-- R34: an instruction that is no control transfer and does not fault advances pc by its length, without overflow, to at
most MEM_SIZE. -/
def Obligations.SequentialAdvanceStaysInBounds : Prop :=
  ∀ (s t : State) (i : Instr), step s = .next t → s.wrapPc.fetch = .ok i → i.assignsPc = false →
    t.status ≠ .faulted → t.pc.toNat = s.wrapPc.pc.toNat + i.length ∧ t.pc.toNat ≤ 65536

/-- Only POKE and MEMCPY write memory: after any other step every address reads as before. -/
def Obligations.OnlyPokeAndMemcpyWriteMemory : Prop :=
  ∀ s t : State, step s = .next t →
    (∀ i, s.wrapPc.fetch = .ok i → (∀ ra rb, i ≠ .poke ra rb) ∧ (∀ ra rb rc, i ≠ .memcpy ra rb rc)) →
    ∀ a, Memory.get t.mem a = Memory.get s.mem a

/-- R38: the stack is written by PUSH and CALL only, its pointer moves in PUSH, CALL, POP and RET only, and the number of its
cells never changes. -/
def Obligations.OnlyStackInstructionsTouchTheStack : Prop :=
  ∀ s t : State, step s = .next t →
    ((∀ i, s.wrapPc.fetch = .ok i → (∀ ra, i ≠ .push ra) ∧ (∀ a, i ≠ .call a)) → t.stack = s.stack) ∧
    ((∀ i, s.wrapPc.fetch = .ok i →
      (∀ ra, i ≠ .push ra) ∧ (∀ a, i ≠ .call a) ∧ (∀ ra, i ≠ .pop ra) ∧ i ≠ .ret) → t.sp = s.sp) ∧
    t.stack.length = s.stack.length

/-- R13: the trace only grows, by at most one event a step, and only INT_PRINT, STRING_PRINT and SYSTEM add one. -/
def Obligations.TheTraceGrowsByOneEventPerEmitter : Prop :=
  ∀ s t : State, step s = .next t →
    (t.trace = s.trace ∨ ∃ e, t.trace = s.trace ++ [e]) ∧
    (t.trace ≠ s.trace → ∃ ra, s.wrapPc.fetch = .ok (.intPrint ra) ∨ s.wrapPc.fetch = .ok (.stringPrint ra) ∨
      s.wrapPc.fetch = .ok (.system ra))

/-- Every register but the destination an instruction names keeps its Value; an instruction that names none, an unknown
opcode (R85) and a fault (R203) change no register. -/
def Obligations.OnlyTheDestinationRegisterChanges : Prop :=
  ∀ (s t : State) (j : Fin 10), step s = .next t →
    (∀ i b, s.wrapPc.fetch = .ok i → i.destination = some b → b.toNat ≠ j.val) → t.reg j = s.reg j

/-- R203: a step that ends Faulted changes nothing but the record and the status (and pc by the wrap, and `unk` for
UnrecognizedOpcode); the record names the opcode's address. -/
def Obligations.FaultsArePrecise : Prop :=
  ∀ s t : State, step s = .next t → t.status = .faulted →
    ∃ c info, t = { s.wrapPc with
        status := .faulted
        fault := some { cause := c, atPc := s.wrapPc.pc, info := info }
        unk := if c = .unrecognizedOpcode then s.unk + 1 else s.unk }

/-- The invariant holds at reset. -/
def Obligations.InvariantHoldsAtReset : Prop := Inv State.reset

/-- Every accepted load gives a machine in which the invariant holds. -/
def Obligations.InvariantHoldsAfterBoot : Prop :=
  ∀ (e : Config.Embedding) (image : List Byte) (t : State), boot e image = .next t → Inv t

/-- Every step keeps the invariant: the memory's canonical form, the fault record, the stack's cells and pointer, and the
bound of the counter. -/
def Obligations.EveryStepKeepsTheInvariant : Prop :=
  ∀ s t : State, Inv s → step s = .next t → Inv t

/-- R18, R204: in every run from an accepted load, the states without a next step are exactly the ended ones, and an ended
one is a successful end or stands Faulted with a record that names the opcode at its pc. -/
def Obligations.RunsEndHaltedOrFaulted : Prop :=
  ∀ (e : Config.Embedding) (image : List Byte) (s t : State), boot e image = .next s → Runs s t →
    ((∀ u, step t ≠ .next u) ↔ Ended t) ∧
    (Ended t → SuccessfulEnd t ∨ (t.status = .faulted ∧ ∃ f, t.fault = some f ∧ f.atPc = t.pc))

/-! ## The host's placing of an instruction -/

/-- The instruction the table's word stands for is the one the very next step runs, wherever it fits below MEM_SIZE (the
host interface of this row, notes/assumptions/19.md). -/
def Obligations.PlacedWordIsTheNextInstruction : Prop :=
  ∀ (s : State) (nbits w : Nat) (i : Instr), decodeTableWord nbits w = some i →
    s.wrapPc.pc.toNat + i.length ≤ 65536 →
    step (s.withFetchWord nbits w) = exec i (s.withFetchWord nbits w).wrapPc

/-! ## Pairs of instructions -/

/-- R175, R176: CALL, then RET as soon as control comes back to a state with the stack as CALL left it, resumes at the
instruction after the CALL with the stack pointer restored. -/
def Obligations.CallThenRetResumesAfterTheCall : Prop :=
  ∀ (s : State) (target : Half), s.sp < 1024 → s.stack.length = 1024 → ∃ t, exec (.call target) s = .next t ∧
    ∀ u : State, u.stack = t.stack → u.sp = t.sp →
      exec .ret u = .next { u with sp := s.sp, pc := s.pc + 3 }

/-- R37: a push followed at once by a pop returns the pushed value unchanged and restores the stack pointer. -/
def Obligations.PushThenPopReturnsTheValue : Prop :=
  ∀ (s : State) (ra rb : Byte) (i d : Fin 10) (v : Word), ra.toNat = i.val → rb.toNat = d.val → s.reg i = .int v →
    s.sp < 1024 → s.stack.length = 1024 → ∃ t u, exec (.push ra) s = .next t ∧ exec (.pop rb) t = .next u ∧
      u.sp = s.sp ∧ u.reg d = .int v ∧ ∀ j, j ≠ d → u.reg j = s.reg j

/-- R64: a POKE of the EXIT opcode to the address the next step fetches halts the machine at that step. -/
def Obligations.PokedExitIsFetchedNext : Prop :=
  ∀ (s : State) (ra rb : Byte) (i j : Fin 10) (v a : Word), s.status = .running → ra.toNat = i.val →
    rb.toNat = j.val → s.reg i = .int v → s.reg j = .int a → v.toNat % 256 = 0 → a.toNat = s.pc.toNat + 3 →
    a.toNat < 65536 → ∃ t, exec (.poke ra rb) s = .next t ∧
      step t = .next { t with status := .halted, pc := t.pc + 1 }

/-! ## The parameters as arguments -/

/-- R6, R78, R79, R85: the parameters are arguments. The default opcode map is the byte column of R78. Under any
parameters whose opcode map is injective with EXIT = 0x00, every encodable instruction is read back from its own bytes,
whatever follows; a byte outside the map is an unknown opcode; a Running machine with the bytes of an instruction at its pc
runs that instruction, and with a byte outside the map there takes the unknown-opcode action with the limit given, or with
none. Only STRING_TOINT, PUSH and CALL depend on a parameter (their own statements say how). -/
def Obligations.AnyLegalOpcodeMapDecodesAndRuns : Prop :=
  OpMap.default.Legal ∧ Op.all.map OpMap.default =
    [0x00, 0x01, 0x02, 0x03, 0x04, 0x10, 0x11, 0x12, 0x20, 0x21, 0x22, 0x23, 0x24, 0x25, 0x26, 0x27, 0x28, 0x30, 0x31, 0x32,
     0x33, 0x34, 0x40, 0x41, 0x42, 0x43, 0x44, 0x50, 0x51, 0x60, 0x61, 0x62, 0x70, 0x71, 0x72, 0x73] ∧
  (∀ s : State, step s = cycleUnder Params.default s) ∧
  (Params.default.opMap = OpMap.default ∧ Params.default.unknownLimit = some 20) ∧
  (∀ (p : Params) (i : Instr) (s : State), (∀ ra, i ≠ .stringToInt ra) → (∀ ra, i ≠ .push ra) → (∀ a, i ≠ .call a) →
    execUnder p i s = exec i s) ∧
  ∀ (p : Params) (m : OpMap), p.opMap = m → (∀ o q, m o = m q → o = q) → m .exit = 0x00 →
    (∀ (i : Instr) (rest : List Byte), i.WellFormed = true →
      (encodeUnder m i).head? = some (m i.op) ∧ decodeBytesUnder m (encodeUnder m i ++ rest) = .ok i) ∧
    (∀ (b : Byte) (rest : List Byte), (∀ o, m o ≠ b) → decodeBytesUnder m (b :: rest) = .error (.unknownOpcode b)) ∧
    (∀ (s : State) (i : Instr), s.status = .running → i.WellFormed = true →
      s.pc.toNat + (encodeUnder m i).length ≤ 65536 →
      (∀ j, j < (encodeUnder m i).length → (encodeUnder m i)[j]? = some (Memory.get s.mem (s.pc.toNat + j))) →
      cycleUnder p s = execUnder p i s) ∧
    ∀ (s : State) (op : Byte), op = Memory.get s.mem s.pc.toNat → s.status = .running → s.pc.toNat < 65536 →
      (∀ o, m o ≠ op) →
      (p.unknownLimit = none → cycleUnder p s = .next { s with unk := s.unk + 1, pc := s.pc + 1 }) ∧
      ∀ limit, p.unknownLimit = some limit →
        (s.unk + 1 ≤ limit → cycleUnder p s = .next { s with unk := s.unk + 1, pc := s.pc + 1 }) ∧
        (limit < s.unk + 1 → cycleUnder p s = .next { s with
          unk := s.unk + 1
          status := .faulted
          fault := some { cause := .unrecognizedOpcode, atPc := s.pc, info := op.toNat } })
end

