-- ==== Sys2Proof/Laws/Memory.lean ====
section
/-! SUPPORT. What each memory operation does to the byte at every address, and that each keeps the canonical form. The laws
about reading hold of every list, canonical or not. -/

namespace Sys2Proof.Machine

/-! ## Reading after writing -/

@[simp] theorem Memory.get_nil (a : Nat) : Memory.get [] a = Config.unlisted := rfl

theorem Memory.get_insert (m : Memory) (a b : Nat) (v : Byte) (h : ∀ c ∈ m, c.1 ≠ a) :
    Memory.get (Memory.insert m a v) b = if a = b then v else Memory.get m b := by
  induction m with
  | nil => simp [Memory.insert, Memory.get]
  | cons c m ih =>
    obtain ⟨k, w⟩ := c
    have hk : k ≠ a := h (k, w) (by simp)
    have ih' := ih (fun c hc => h c (by simp [hc]))
    unfold Memory.insert
    split <;> simp only [Memory.get, ih']
    split <;> split <;> simp_all

theorem Memory.get_filter_ne (m : Memory) (a b : Nat) :
    Memory.get (m.filter (fun c => c.1 != a)) b = if a = b then Config.unlisted else Memory.get m b := by
  induction m with
  | nil => simp [Memory.get]
  | cons c m ih =>
    obtain ⟨k, w⟩ := c
    by_cases hk : k = a
    · subst hk; simp [ih, Memory.get]; split <;> simp_all
    · simp [hk, Memory.get, ih]; split <;> split <;> simp_all

/-- A read after a write: the written byte at its address, the old byte everywhere else (R55, R60). -/
@[simp] theorem Memory.get_set (m : Memory) (a b : Nat) (v : Byte) :
    Memory.get (Memory.set m a v) b = if a = b then v else Memory.get m b := by
  unfold Memory.set
  split
  · next h => subst h; exact Memory.get_filter_ne m a b
  · rw [Memory.get_insert _ _ _ _ (by simp), Memory.get_filter_ne]
    split <;> rfl

/-- Reading after a sequence of bytes was stored. -/
theorem Memory.get_setBytes (m : Memory) (a b : Nat) (bs : List Byte) :
    Memory.get (Memory.setBytes m a bs) b =
      if a ≤ b ∧ b < a + bs.length then bs.getD (b - a) 0 else Memory.get m b := by
  induction bs generalizing m a with
  | nil => simp [Memory.setBytes]
  | cons x bs ih =>
    rw [Memory.setBytes, ih, Memory.get_set]
    by_cases hab : a = b
    · subst hab; simp
    · by_cases h1 : a + 1 ≤ b ∧ b < a + 1 + bs.length
      · rw [if_pos h1, if_pos (by simp; omega)]
        obtain ⟨j, rfl⟩ : ∃ j, b = a + 1 + j := ⟨b - (a + 1), by omega⟩
        have : a + 1 + j - a = j + 1 := by omega
        simp [this]
      · rw [if_neg h1, if_neg hab, if_neg (by simp; omega)]

/-- Filtering by address keeps the bytes it keeps and clears the rest. -/
theorem Memory.get_filter_lt (m : Memory) (a b : Nat) :
    Memory.get (m.filter (fun c => c.1 < a)) b = if b < a then Memory.get m b else Config.unlisted := by
  induction m with
  | nil => simp [Memory.get]
  | cons c m ih =>
    obtain ⟨k, w⟩ := c
    by_cases hk : k < a
    · simp only [List.filter_cons, hk, decide_true, if_true, Memory.get, ih]
      split <;> split <;> simp_all
    · rw [List.filter_cons_of_neg (by simpa using hk), ih]
      by_cases hb : b < a
      · simp [hb, Memory.get, show k ≠ b by omega]
      · simp [hb]

/-- MEMCPY's loop changes no byte outside its destination range. -/
theorem Memory.get_copyUp_outside (m : Memory) (d s n a : Nat) (h : a < d ∨ d + n ≤ a) :
    Memory.get (Memory.copyUp m d s n) a = Memory.get m a := by
  induction n generalizing m d s with
  | zero => rfl
  | succ n ih =>
    rw [Memory.copyUp, ih _ _ _ (by omega), Memory.get_set, if_neg (by omega)]

/-! ## The canonical form -/

theorem Memory.wf_iff (m : Memory) : Memory.wf m = true ↔
    m.Pairwise (fun c d => c.1 < d.1) ∧ ∀ c ∈ m, c.1 < Config.memSize ∧ c.2 ≠ Config.unlisted := by
  simp [Memory.wf]

@[simp] theorem Memory.wf_nil : Memory.wf [] = true := rfl

/-- The reset state's memory has the canonical form. -/
theorem State.reset_mem_wf : Memory.wf State.reset.mem = true := rfl

theorem Memory.wf_filter (m : Memory) (p : Host.Cell → Bool) (h : Memory.wf m = true) :
    Memory.wf (m.filter p) = true := by
  rw [Memory.wf_iff] at *
  exact ⟨h.1.filter p, fun c hc => h.2 c (List.mem_filter.mp hc).1⟩

theorem Memory.mem_insert (m : Memory) (a : Nat) (v : Byte) (c : Host.Cell) :
    c ∈ Memory.insert m a v ↔ c = (a, v) ∨ c ∈ m := by
  induction m with
  | nil => simp [Memory.insert]
  | cons k m ih =>
    obtain ⟨k, w⟩ := k
    unfold Memory.insert
    split
    · simp
    · simp [ih]; tauto

theorem Memory.wf_insert (m : Memory) (a : Nat) (v : Byte) (h : Memory.wf m = true) (hn : ∀ c ∈ m, c.1 ≠ a)
    (ha : a < Config.memSize) (hv : v ≠ Config.unlisted) : Memory.wf (Memory.insert m a v) = true := by
  rw [Memory.wf_iff] at *
  refine ⟨?_, fun c hc => ?_⟩
  · induction m with
    | nil => simp [Memory.insert]
    | cons c m ih =>
      obtain ⟨k, w⟩ := c
      have hk : k ≠ a := hn (k, w) (by simp)
      obtain ⟨hp, ht⟩ := List.pairwise_cons.mp h.1
      unfold Memory.insert
      split
      · next hlt =>
        refine List.pairwise_cons.mpr ⟨fun e he => ?_, h.1⟩
        rcases List.mem_cons.mp he with rfl | he
        · exact hlt
        · exact lt_trans hlt (hp e he)
      · next hge =>
        refine List.pairwise_cons.mpr ⟨fun e he => ?_, ih ⟨ht, fun c hc => h.2 c (by simp [hc])⟩
          (fun c hc => hn c (by simp [hc]))⟩
        rcases (Memory.mem_insert _ _ _ _).mp he with rfl | he
        · show k < a
          omega
        · exact hp e he
  · rcases (Memory.mem_insert _ _ _ _).mp hc with rfl | hc
    · exact ⟨ha, hv⟩
    · exact h.2 c hc

/-- A write inside the address space keeps the canonical form. -/
theorem Memory.wf_set (m : Memory) (a : Nat) (v : Byte) (h : Memory.wf m = true) (ha : a < Config.memSize) :
    Memory.wf (Memory.set m a v) = true := by
  unfold Memory.set
  split
  · exact Memory.wf_filter _ _ h
  · next hv => exact Memory.wf_insert _ _ _ (Memory.wf_filter _ _ h) (by simp) ha hv

theorem Memory.wf_setBytes (m : Memory) (a : Nat) (bs : List Byte) (h : Memory.wf m = true)
    (ha : a + bs.length ≤ Config.memSize) : Memory.wf (Memory.setBytes m a bs) = true := by
  induction bs generalizing m a with
  | nil => exact h
  | cons b bs ih =>
    simp only [List.length_cons] at ha
    exact ih _ _ (Memory.wf_set _ _ _ h (by omega)) (by omega)

theorem Memory.wf_copyUp (m : Memory) (d s n : Nat) (h : Memory.wf m = true) (hd : d + n ≤ Config.memSize) :
    Memory.wf (Memory.copyUp m d s n) = true := by
  induction n generalizing m d s with
  | zero => exact h
  | succ n ih => exact ih _ _ _ (Memory.wf_set _ _ _ h (by omega)) (by omega)

/-! ## Loading and placing -/

@[simp] theorem literalAt_length (byte : Nat → Byte) (k n : Nat) : (literalAt byte k n).length = n := by
  induction n generalizing k with
  | zero => rfl
  | succ n ih => simp [literalAt, ih]

/-- Byte `j` of a literal fetched from position `k`. -/
theorem literalAt_getElem (byte : Nat → Byte) (k n j : Nat) (h : j < (literalAt byte k n).length) :
    (literalAt byte k n)[j] = byte (k + j) := by
  induction n generalizing k j with
  | zero => simp [literalAt] at h
  | succ n ih =>
    cases j with
    | zero => simp [literalAt]
    | succ j => simp [literalAt, ih]; congr 1; omega

theorem Memory.wf_place (m : Memory) (a nbits w : Nat) (h : Memory.wf m = true) (ha : a < Config.memSize) :
    Memory.wf (Memory.place m a nbits w) = true :=
  Memory.wf_setBytes _ _ _ (Memory.wf_filter _ _ h) (by simp [tableBytes]; omega)

theorem Memory.get_map_fill (as : List Nat) (fill : Byte) (a : Nat) (h : a ∈ as) :
    Memory.get (as.map (fun k => (k, fill))) a = fill := by
  induction as with
  | nil => cases h
  | cons k as ih =>
    by_cases hk : k = a
    · simp [Memory.get, hk]
    · simp only [List.map_cons, Memory.get, if_neg hk]
      exact ih ((List.mem_cons.mp h).resolve_left (fun e => hk e.symm))

/-- Every byte of a filled address space is the fill. -/
theorem Memory.get_filled (fill : Byte) (a : Nat) (h : a < Config.memSize) : Memory.get (Memory.filled fill) a = fill := by
  unfold Memory.filled
  split
  · next e => rw [e]; rfl
  · exact Memory.get_map_fill _ _ _ (List.mem_range.mpr h)

theorem Memory.wf_filled (fill : Byte) : Memory.wf (Memory.filled fill) = true := by
  unfold Memory.filled
  split
  · rfl
  · next e =>
    rw [Memory.wf_iff]
    refine ⟨?_, fun c hc => ?_⟩
    · rw [List.pairwise_map]; exact List.pairwise_lt_range
    · obtain ⟨a, ha, rfl⟩ := List.mem_map.mp hc
      exact ⟨List.mem_range.mp ha, e⟩

/-- The address space after a load (R41): the image, then MEM_FILL. -/
theorem State.loadUnder_get (p : Params) (image : List Byte) (a : Nat) (h : a < Config.memSize) :
    Memory.get (State.loadUnder p image).mem a = if a < image.length then image.getD a 0 else p.memFill := by
  simp [State.loadUnder, Memory.get_setBytes, Memory.get_filled _ _ h]

theorem State.loadUnder_mem_wf (p : Params) (image : List Byte) (h : image.length ≤ Config.memSize) :
    Memory.wf (State.loadUnder p image).mem = true :=
  Memory.wf_setBytes _ _ _ (Memory.wf_filled _) (by omega)

/-- Everything the load port can do. -/
theorem bootUnder_cases (p : Params) (e : Config.Embedding) (image : List Byte) :
    (1 ≤ image.length ∧ image.length ≤ Config.memSize ∧ e = Config.Embedding.default ∧
      bootUnder p e image = .next (State.loadUnder p image)) ∨ ∃ r, bootUnder p e image = .refused r := by
  unfold bootUnder
  split
  · exact .inr ⟨_, rfl⟩
  split
  · exact .inr ⟨_, rfl⟩
  split
  · exact .inr ⟨_, rfl⟩
  split
  · exact .inr ⟨_, rfl⟩
  split
  · exact .inr ⟨_, rfl⟩
  split
  · exact .inr ⟨_, rfl⟩
  · refine .inl ⟨by omega, by omega, ?_, rfl⟩
    obtain ⟨ops, hook, run, text⟩ := e
    simp_all [Config.Embedding.default]

end Sys2Proof.Machine
end

