-- ==== Sys2Proof/Laws/Decode.lean ====
section
/-! SUPPORT. Lemmas about the pieces of decoding and encoding: the 16-bit operand, the literal, the checks of the formats,
the parameters. -/

namespace Sys2Proof

/-- The value of a 16-bit operand is `lo + 256 * hi` (R50). -/
theorem half_toNat (lo hi : Byte) : (half lo hi).toNat = lo.toNat + 256 * hi.toNat := by
  have h1 := lo.isLt
  have h2 := hi.isLt
  simp [half]
  omega

/-- A 16-bit operand written as two bytes reads back. -/
@[simp] theorem half_loByte_hiByte (h : Half) : half (loByte h) (hiByte h) = h := by
  have hh := h.isLt
  apply BitVec.eq_of_toNat_eq
  rw [half_toNat]
  simp [loByte, hiByte]
  omega

/-- Two bytes read as a 16-bit operand write back. -/
@[simp] theorem loByte_half (lo hi : Byte) : loByte (half lo hi) = lo := by
  have h1 := lo.isLt
  apply BitVec.eq_of_toNat_eq
  simp [loByte, half_toNat]
  omega

@[simp] theorem hiByte_half (lo hi : Byte) : hiByte (half lo hi) = hi := by
  have h1 := lo.isLt
  have h2 := hi.isLt
  apply BitVec.eq_of_toNat_eq
  simp [hiByte, half_toNat]
  omega

/-- Everything the length check of a format can do. -/
theorem needBytes_cases (avail len : Nat) (i : Instr) :
    (len ≤ avail ∧ needBytes avail len i = .ok i) ∨
    (avail < len ∧ needBytes avail len i = .error (.truncated avail)) := by
  unfold needBytes
  split
  · next h => exact .inr ⟨h, rfl⟩
  · next h => exact .inl ⟨Nat.not_lt.mp h, rfl⟩

theorem needBytes_eq_ok (avail len : Nat) (i j : Instr) : needBytes avail len i = .ok j ↔ len ≤ avail ∧ i = j := by
  rcases needBytes_cases avail len i with ⟨h, e⟩ | ⟨h, e⟩ <;> rw [e] <;> simp <;> omega

/-- A literal fetched from a byte list behind its first `k` bytes is the list's own segment. -/
theorem literalAt_eq_take (byte : Nat → Byte) (k : Nat) (t : List Byte)
    (h : ∀ j (hj : j < t.length), byte (k + j) = t[j]) : literalAt byte k t.length = t := by
  apply List.ext_getElem
  · simp
  · intro j h1 h2
    rw [Machine.literalAt_getElem]
    exact h j h2

/-- The list of the opcode map's rows misses none. -/
theorem Op.mem_all (o : Op) : o ∈ Op.all := by cases o <;> decide

/-- The byte a legal map gives an instruction selects that instruction. -/
theorem OpMap.lookup_self {m : OpMap} (h : m.Legal) (o : Op) : m.lookup (m o) = some o := by
  have hs : (m.lookup (m o)).isSome = true :=
    List.find?_isSome.mpr ⟨o, Op.mem_all o, by simp⟩
  obtain ⟨p, hp⟩ := Option.isSome_iff_exists.mp hs
  rw [hp, h.1 p o (by simpa using List.find?_some hp)]

/-- Whatever a map selects for a byte has that byte. -/
theorem OpMap.lookup_some {m : OpMap} {b : Byte} {o : Op} (h : m.lookup b = some o) : m o = b := by
  simpa using List.find?_some h

/-- A byte is an unknown opcode iff it is no instruction's. -/
theorem OpMap.lookup_eq_none (m : OpMap) (b : Byte) : m.lookup b = none ↔ ∀ o, m o ≠ b := by
  simp [OpMap.lookup, List.find?_eq_none, Op.mem_all]

/-- The default map is injective with EXIT at 0x00 (R78). -/
theorem OpMap.default_legal : OpMap.default.Legal := by
  have h : ∀ o, OpMap.default.lookup (OpMap.default o) = some o := fun o => by cases o <;> decide
  exact ⟨fun o p e => Option.some.inj ((h o).symm.trans (e ▸ h p)), rfl⟩

/-- The decoder on a byte a legal map gives to an instruction. -/
theorem decodeUnder_mapped {m : OpMap} (h : m.Legal) (o : Op) (byte : Nat → Byte) (avail : Nat) (ha : 0 < avail)
    (hb : byte 0 = m o) : decodeUnder m byte avail = decodeOp o byte avail := by
  simp [decodeUnder, Nat.pos_iff_ne_zero.mp ha, hb, OpMap.lookup_self h]

/-- The decoder on a byte outside the map. -/
theorem decodeUnder_unmapped {m : OpMap} (byte : Nat → Byte) (avail : Nat) (ha : 0 < avail)
    (hb : ∀ o, m o ≠ byte 0) : decodeUnder m byte avail = .error (.unknownOpcode (byte 0)) := by
  simp [decodeUnder, Nat.pos_iff_ne_zero.mp ha, (OpMap.lookup_eq_none m (byte 0)).mpr hb]

/-- The parameters this model is instantiated at are legal (R7). -/
theorem Config.legal : Config.Legal Config.nreg Config.memSize Config.stackDepth = true := rfl

end Sys2Proof
end

