-- ==== Sys2Proof/Laws/State.lean ====
section
/-! SUPPORT. One lemma per field per update of the state, and the reading of a register after each update. -/

namespace Sys2Proof.Machine

variable (s : State)

@[simp] theorem State.setReg_regs (i : Fin Config.nreg) (v : Value) : (s.setReg i v).regs = s.regs.set i.val v i.isLt := rfl
@[simp] theorem State.setReg_z (i : Fin Config.nreg) (v : Value) : (s.setReg i v).z = s.z := rfl
@[simp] theorem State.setReg_pc (i : Fin Config.nreg) (v : Value) : (s.setReg i v).pc = s.pc := rfl
@[simp] theorem State.setReg_mem (i : Fin Config.nreg) (v : Value) : (s.setReg i v).mem = s.mem := rfl
@[simp] theorem State.setReg_stack (i : Fin Config.nreg) (v : Value) : (s.setReg i v).stack = s.stack := rfl
@[simp] theorem State.setReg_sp (i : Fin Config.nreg) (v : Value) : (s.setReg i v).sp = s.sp := rfl
@[simp] theorem State.setReg_status (i : Fin Config.nreg) (v : Value) : (s.setReg i v).status = s.status := rfl
@[simp] theorem State.setReg_unk (i : Fin Config.nreg) (v : Value) : (s.setReg i v).unk = s.unk := rfl
@[simp] theorem State.setReg_fault (i : Fin Config.nreg) (v : Value) : (s.setReg i v).fault = s.fault := rfl
@[simp] theorem State.setReg_trace (i : Fin Config.nreg) (v : Value) : (s.setReg i v).trace = s.trace := rfl
@[simp] theorem State.setReg_draws (i : Fin Config.nreg) (v : Value) : (s.setReg i v).draws = s.draws := rfl

@[simp] theorem State.setZ_regs (b : Bool) : (s.setZ b).regs = s.regs := rfl
@[simp] theorem State.setZ_z (b : Bool) : (s.setZ b).z = b := rfl
@[simp] theorem State.setZ_pc (b : Bool) : (s.setZ b).pc = s.pc := rfl
@[simp] theorem State.setZ_mem (b : Bool) : (s.setZ b).mem = s.mem := rfl
@[simp] theorem State.setZ_stack (b : Bool) : (s.setZ b).stack = s.stack := rfl
@[simp] theorem State.setZ_sp (b : Bool) : (s.setZ b).sp = s.sp := rfl
@[simp] theorem State.setZ_status (b : Bool) : (s.setZ b).status = s.status := rfl
@[simp] theorem State.setZ_unk (b : Bool) : (s.setZ b).unk = s.unk := rfl
@[simp] theorem State.setZ_fault (b : Bool) : (s.setZ b).fault = s.fault := rfl
@[simp] theorem State.setZ_trace (b : Bool) : (s.setZ b).trace = s.trace := rfl
@[simp] theorem State.setZ_draws (b : Bool) : (s.setZ b).draws = s.draws := rfl

@[simp] theorem State.setPc_regs (a : Word) : (s.setPc a).regs = s.regs := rfl
@[simp] theorem State.setPc_z (a : Word) : (s.setPc a).z = s.z := rfl
@[simp] theorem State.setPc_pc (a : Word) : (s.setPc a).pc = a := rfl
@[simp] theorem State.setPc_mem (a : Word) : (s.setPc a).mem = s.mem := rfl
@[simp] theorem State.setPc_stack (a : Word) : (s.setPc a).stack = s.stack := rfl
@[simp] theorem State.setPc_sp (a : Word) : (s.setPc a).sp = s.sp := rfl
@[simp] theorem State.setPc_status (a : Word) : (s.setPc a).status = s.status := rfl
@[simp] theorem State.setPc_unk (a : Word) : (s.setPc a).unk = s.unk := rfl
@[simp] theorem State.setPc_fault (a : Word) : (s.setPc a).fault = s.fault := rfl
@[simp] theorem State.setPc_trace (a : Word) : (s.setPc a).trace = s.trace := rfl
@[simp] theorem State.setPc_draws (a : Word) : (s.setPc a).draws = s.draws := rfl

@[simp] theorem State.advance_regs (n : Nat) : (s.advance n).regs = s.regs := rfl
@[simp] theorem State.advance_z (n : Nat) : (s.advance n).z = s.z := rfl
@[simp] theorem State.advance_pc (n : Nat) : (s.advance n).pc = s.pc + BitVec.ofNat 32 n := rfl
@[simp] theorem State.advance_mem (n : Nat) : (s.advance n).mem = s.mem := rfl
@[simp] theorem State.advance_stack (n : Nat) : (s.advance n).stack = s.stack := rfl
@[simp] theorem State.advance_sp (n : Nat) : (s.advance n).sp = s.sp := rfl
@[simp] theorem State.advance_status (n : Nat) : (s.advance n).status = s.status := rfl
@[simp] theorem State.advance_unk (n : Nat) : (s.advance n).unk = s.unk := rfl
@[simp] theorem State.advance_fault (n : Nat) : (s.advance n).fault = s.fault := rfl
@[simp] theorem State.advance_trace (n : Nat) : (s.advance n).trace = s.trace := rfl
@[simp] theorem State.advance_draws (n : Nat) : (s.advance n).draws = s.draws := rfl

@[simp] theorem State.setMem_regs (m : Memory) : (s.setMem m).regs = s.regs := rfl
@[simp] theorem State.setMem_z (m : Memory) : (s.setMem m).z = s.z := rfl
@[simp] theorem State.setMem_pc (m : Memory) : (s.setMem m).pc = s.pc := rfl
@[simp] theorem State.setMem_mem (m : Memory) : (s.setMem m).mem = m := rfl
@[simp] theorem State.setMem_stack (m : Memory) : (s.setMem m).stack = s.stack := rfl
@[simp] theorem State.setMem_sp (m : Memory) : (s.setMem m).sp = s.sp := rfl
@[simp] theorem State.setMem_status (m : Memory) : (s.setMem m).status = s.status := rfl
@[simp] theorem State.setMem_unk (m : Memory) : (s.setMem m).unk = s.unk := rfl
@[simp] theorem State.setMem_fault (m : Memory) : (s.setMem m).fault = s.fault := rfl
@[simp] theorem State.setMem_trace (m : Memory) : (s.setMem m).trace = s.trace := rfl
@[simp] theorem State.setMem_draws (m : Memory) : (s.setMem m).draws = s.draws := rfl

@[simp] theorem State.halt_regs : (s.halt).regs = s.regs := rfl
@[simp] theorem State.halt_z : (s.halt).z = s.z := rfl
@[simp] theorem State.halt_pc : (s.halt).pc = s.pc := rfl
@[simp] theorem State.halt_mem : (s.halt).mem = s.mem := rfl
@[simp] theorem State.halt_stack : (s.halt).stack = s.stack := rfl
@[simp] theorem State.halt_sp : (s.halt).sp = s.sp := rfl
@[simp] theorem State.halt_status : (s.halt).status = .halted := rfl
@[simp] theorem State.halt_unk : (s.halt).unk = s.unk := rfl
@[simp] theorem State.halt_fault : (s.halt).fault = s.fault := rfl
@[simp] theorem State.halt_trace : (s.halt).trace = s.trace := rfl
@[simp] theorem State.halt_draws : (s.halt).draws = s.draws := rfl

@[simp] theorem State.emit_regs (e : Event) : (s.emit e).regs = s.regs := rfl
@[simp] theorem State.emit_z (e : Event) : (s.emit e).z = s.z := rfl
@[simp] theorem State.emit_pc (e : Event) : (s.emit e).pc = s.pc := rfl
@[simp] theorem State.emit_mem (e : Event) : (s.emit e).mem = s.mem := rfl
@[simp] theorem State.emit_stack (e : Event) : (s.emit e).stack = s.stack := rfl
@[simp] theorem State.emit_sp (e : Event) : (s.emit e).sp = s.sp := rfl
@[simp] theorem State.emit_status (e : Event) : (s.emit e).status = s.status := rfl
@[simp] theorem State.emit_unk (e : Event) : (s.emit e).unk = s.unk := rfl
@[simp] theorem State.emit_fault (e : Event) : (s.emit e).fault = s.fault := rfl
@[simp] theorem State.emit_trace (e : Event) : (s.emit e).trace = s.trace ++ [e] := rfl
@[simp] theorem State.emit_draws (e : Event) : (s.emit e).draws = s.draws := rfl

@[simp] theorem State.raise_regs (r : Raise) : (s.raise r).regs = s.regs := rfl
@[simp] theorem State.raise_z (r : Raise) : (s.raise r).z = s.z := rfl
@[simp] theorem State.raise_pc (r : Raise) : (s.raise r).pc = s.pc := rfl
@[simp] theorem State.raise_mem (r : Raise) : (s.raise r).mem = s.mem := rfl
@[simp] theorem State.raise_stack (r : Raise) : (s.raise r).stack = s.stack := rfl
@[simp] theorem State.raise_sp (r : Raise) : (s.raise r).sp = s.sp := rfl
@[simp] theorem State.raise_status (r : Raise) : (s.raise r).status = .faulted := rfl
@[simp] theorem State.raise_unk (r : Raise) : (s.raise r).unk = s.unk := rfl
@[simp] theorem State.raise_fault (r : Raise) : (s.raise r).fault = some ⟨r.cause, s.pc, r.info⟩ := rfl
@[simp] theorem State.raise_trace (r : Raise) : (s.raise r).trace = s.trace := rfl
@[simp] theorem State.raise_draws (r : Raise) : (s.raise r).draws = s.draws := rfl

@[simp] theorem State.withFetchWord_regs (nbits w : Nat) : (s.withFetchWord nbits w).regs = s.regs := rfl
@[simp] theorem State.withFetchWord_z (nbits w : Nat) : (s.withFetchWord nbits w).z = s.z := rfl
@[simp] theorem State.withFetchWord_pc (nbits w : Nat) : (s.withFetchWord nbits w).pc = s.pc := rfl
@[simp] theorem State.withFetchWord_mem (nbits w : Nat) : (s.withFetchWord nbits w).mem = Memory.place s.mem s.wrapPc.pc.toNat nbits w := rfl
@[simp] theorem State.withFetchWord_stack (nbits w : Nat) : (s.withFetchWord nbits w).stack = s.stack := rfl
@[simp] theorem State.withFetchWord_sp (nbits w : Nat) : (s.withFetchWord nbits w).sp = s.sp := rfl
@[simp] theorem State.withFetchWord_status (nbits w : Nat) : (s.withFetchWord nbits w).status = .running := rfl
@[simp] theorem State.withFetchWord_unk (nbits w : Nat) : (s.withFetchWord nbits w).unk = s.unk := rfl
@[simp] theorem State.withFetchWord_fault (nbits w : Nat) : (s.withFetchWord nbits w).fault = s.fault := rfl
@[simp] theorem State.withFetchWord_trace (nbits w : Nat) : (s.withFetchWord nbits w).trace = s.trace := rfl
@[simp] theorem State.withFetchWord_draws (nbits w : Nat) : (s.withFetchWord nbits w).draws = s.draws := rfl

@[simp] theorem State.draw16_fst : s.draw16.1 = Config.draw s.draws := rfl

@[simp] theorem State.draw16_regs : s.draw16.2.regs = s.regs := rfl
@[simp] theorem State.draw16_z : s.draw16.2.z = s.z := rfl
@[simp] theorem State.draw16_pc : s.draw16.2.pc = s.pc := rfl
@[simp] theorem State.draw16_mem : s.draw16.2.mem = s.mem := rfl
@[simp] theorem State.draw16_stack : s.draw16.2.stack = s.stack := rfl
@[simp] theorem State.draw16_sp : s.draw16.2.sp = s.sp := rfl
@[simp] theorem State.draw16_status : s.draw16.2.status = s.status := rfl
@[simp] theorem State.draw16_unk : s.draw16.2.unk = s.unk := rfl
@[simp] theorem State.draw16_fault : s.draw16.2.fault = s.fault := rfl
@[simp] theorem State.draw16_trace : s.draw16.2.trace = s.trace := rfl
@[simp] theorem State.draw16_draws : s.draw16.2.draws = s.draws + 1 := rfl

/-- A register read after a register write (R25, S1 of `95_test_vectors.md`). -/
@[simp] theorem State.setReg_reg (i j : Fin Config.nreg) (v : Value) :
    (s.setReg i v).reg j = if i = j then v else s.reg j := by
  simp [State.reg, State.setReg, Vector.getElem_set, Fin.ext_iff]

@[simp] theorem State.setZ_reg (b : Bool) (i : Fin Config.nreg) : (s.setZ b).reg i = s.reg i := rfl
@[simp] theorem State.setPc_reg (a : Word) (i : Fin Config.nreg) : (s.setPc a).reg i = s.reg i := rfl
@[simp] theorem State.advance_reg (n : Nat) (i : Fin Config.nreg) : (s.advance n).reg i = s.reg i := rfl
@[simp] theorem State.setMem_reg (m : Memory) (i : Fin Config.nreg) : (s.setMem m).reg i = s.reg i := rfl
@[simp] theorem State.halt_reg (i : Fin Config.nreg) : (s.halt).reg i = s.reg i := rfl
@[simp] theorem State.emit_reg (e : Event) (i : Fin Config.nreg) : (s.emit e).reg i = s.reg i := rfl
@[simp] theorem State.raise_reg (r : Raise) (i : Fin Config.nreg) : (s.raise r).reg i = s.reg i := rfl
@[simp] theorem State.withFetchWord_reg (nbits w : Nat) (i : Fin Config.nreg) : (s.withFetchWord nbits w).reg i = s.reg i := rfl
@[simp] theorem State.draw16_reg (i : Fin Config.nreg) : s.draw16.2.reg i = s.reg i := rfl

/-- Every register holds `Int(0)` after reset (R26). -/
@[simp] theorem State.reset_reg (i : Fin Config.nreg) : State.reset.reg i = .int 0 := by
  simp [State.reg, State.reset]

end Sys2Proof.Machine
end

