-- ==== Sys2Proof/Laws/Ops.lean ====
section
/-! SUPPORT. For each shared operation, one lemma that says everything it can do, and the small lemmas that run it on
operands whose checks are known. -/

namespace Sys2Proof.Machine

/-! ## Sequencing of checks -/

@[simp] theorem except_ok_bind {α β : Type} (a : α) (f : α → Except Raise β) : (Except.ok a >>= f) = f a := rfl

@[simp] theorem except_error_bind {α β : Type} (r : Raise) (f : α → Except Raise β) :
    ((Except.error r : Except Raise α) >>= f) = .error r := rfl

@[simp] theorem except_pure {α : Type} (a : α) : (pure a : Except Raise α) = .ok a := rfl

theorem except_bind_eq_ok {α β : Type} (x : Except Raise α) (f : α → Except Raise β) (b : β) :
    (x >>= f) = .ok b ↔ ∃ a, x = .ok a ∧ f a = .ok b := by
  cases x <;> simp

theorem except_bind_eq_error {α β : Type} (x : Except Raise α) (f : α → Except Raise β) (r : Raise) :
    (x >>= f) = .error r ↔ x = .error r ∨ ∃ a, x = .ok a ∧ f a = .error r := by
  cases x <;> simp

@[simp] theorem settle_ok (s t : State) : settle s (.ok t) = .next t := rfl

@[simp] theorem settle_error (s : State) (r : Raise) : settle s (.error r) = .next (s.raise r) := rfl

/-- An instruction ends in its result or in the fault entry from the state it began in; there is no third way. -/
theorem settle_cases (s : State) (x : Except Raise State) :
    (∃ t, x = .ok t ∧ settle s x = .next t) ∨ (∃ r, x = .error r ∧ settle s x = .next (s.raise r)) := by
  cases x <;> simp

/-! ## Operands -/

theorem regCheck_ok {b : Byte} {i : Fin Config.nreg} (h : b.toNat = i.val) : regCheck b = .ok i := by
  have hb : b.toNat < Config.nreg := h ▸ i.isLt
  simp only [regCheck, hb, dif_pos, Except.ok.injEq]
  exact Fin.ext h

theorem regCheck_error {b : Byte} (h : Config.nreg ≤ b.toNat) :
    regCheck b = .error ⟨.indexOutOfBounds, b.toNat⟩ := by
  simp only [regCheck, dif_neg (Nat.not_lt.mpr h)]

theorem regCheck_eq_ok {b : Byte} {i : Fin Config.nreg} : regCheck b = .ok i ↔ b.toNat = i.val := by
  refine ⟨fun h => ?_, regCheck_ok⟩
  unfold regCheck at h
  split at h
  · next hb => rw [← (Except.ok.inj h)]
  · cases h

theorem regCheck_eq_error {b : Byte} {r : Raise} :
    regCheck b = .error r ↔ Config.nreg ≤ b.toNat ∧ r = ⟨.indexOutOfBounds, b.toNat⟩ := by
  unfold regCheck
  split
  · next h => simp only [reduceCtorEq, false_iff]; omega
  · next h => simp only [Except.error.injEq, Nat.not_lt.mp h, true_and]; exact eq_comm

theorem State.intOf_ok {s : State} {i : Fin Config.nreg} {v : Word} (h : s.reg i = .int v) : s.intOf i = .ok v := by
  simp [State.intOf, h]

theorem State.intOf_error {s : State} {i : Fin Config.nreg} {t : List Byte} (h : s.reg i = .text t) :
    s.intOf i = .error ⟨.typeMismatch, i.val⟩ := by
  simp [State.intOf, h]

theorem State.intOf_eq_ok {s : State} {i : Fin Config.nreg} {v : Word} : s.intOf i = .ok v ↔ s.reg i = .int v := by
  unfold State.intOf
  split <;> simp_all

theorem State.intOf_eq_error {s : State} {i : Fin Config.nreg} {r : Raise} :
    s.intOf i = .error r ↔ (∃ t, s.reg i = .text t) ∧ r = ⟨.typeMismatch, i.val⟩ := by
  unfold State.intOf
  split <;> simp_all [eq_comm]

theorem State.textOf_ok {s : State} {i : Fin Config.nreg} {t : List Byte} (h : s.reg i = .text t) :
    s.textOf i = .ok t := by
  simp [State.textOf, h]

theorem State.textOf_error {s : State} {i : Fin Config.nreg} {v : Word} (h : s.reg i = .int v) :
    s.textOf i = .error ⟨.typeMismatch, i.val⟩ := by
  simp [State.textOf, h]

theorem State.textOf_eq_ok {s : State} {i : Fin Config.nreg} {t : List Byte} :
    s.textOf i = .ok t ↔ s.reg i = .text t := by
  unfold State.textOf
  split <;> simp_all

theorem State.textOf_eq_error {s : State} {i : Fin Config.nreg} {r : Raise} :
    s.textOf i = .error r ↔ (∃ v, s.reg i = .int v) ∧ r = ⟨.typeMismatch, i.val⟩ := by
  unfold State.textOf
  split <;> simp_all [eq_comm]

@[simp] theorem immWord_toNat (imm : Half) : (immWord imm).toNat = imm.toNat := by
  simp [immWord]; omega

@[simp] theorem targetWord_toNat (t : Half) : (targetWord t).toNat = t.toNat := by
  simp [targetWord]; omega

@[simp] theorem byteWord_toNat (b : Byte) : (byteWord b).toNat = b.toNat := by
  simp [byteWord]; omega

@[simp] theorem lowByte_toNat (v : Word) : (lowByte v).toNat = v.toNat % 256 := by
  simp [lowByte]

/-! ## Memory access -/

/-- Everything MemRead can do. -/
theorem State.memRead_cases (s : State) (a : Word) :
    (a.toNat < Config.memSize ∧ s.memRead a = .ok (Memory.get s.mem a.toNat)) ∨
    (Config.memSize ≤ a.toNat ∧ s.memRead a = .error ⟨.addressOutOfRange, a.toNat⟩) := by
  unfold State.memRead
  split
  · next h => exact .inl ⟨h, rfl⟩
  · next h => exact .inr ⟨Nat.not_lt.mp h, rfl⟩

/-- Everything MemWrite can do. -/
theorem State.memWrite_cases (s : State) (a : Word) (b : Byte) :
    (a.toNat < Config.memSize ∧ s.memWrite a b = .ok (s.setMem (Memory.set s.mem a.toNat b))) ∨
    (Config.memSize ≤ a.toNat ∧ s.memWrite a b = .error ⟨.addressOutOfRange, a.toNat⟩) := by
  unfold State.memWrite
  split
  · next h => exact .inl ⟨h, rfl⟩
  · next h => exact .inr ⟨Nat.not_lt.mp h, rfl⟩

/-- Everything the range check of MEMCPY can do. -/
theorem rangeCheck_cases (a n : Word) :
    ((n.toNat = 0 ∨ a.toNat + n.toNat ≤ Config.memSize) ∧ rangeCheck a n = .ok ()) ∨
    (0 < n.toNat ∧ Config.memSize < a.toNat + n.toNat ∧ rangeCheck a n = .error ⟨.addressOutOfRange, a.toNat⟩) := by
  unfold rangeCheck
  split
  · next h => exact .inr ⟨h.1, h.2, rfl⟩
  · next h => exact .inl ⟨by omega, rfl⟩

/-! ## The stack -/

/-- Everything Push can do. -/
theorem State.push_cases (s : State) (depth : Nat) (w : Word) :
    (s.sp < depth ∧ s.push depth w = .ok { s with stack := s.stack.set s.sp w, sp := s.sp + 1 }) ∨
    (depth ≤ s.sp ∧ s.push depth w = .error ⟨.stackOverflow, 0⟩) := by
  unfold State.push
  split
  · next h => exact .inl ⟨h, rfl⟩
  · next h => exact .inr ⟨Nat.not_lt.mp h, rfl⟩

/-- Everything Pop can do. -/
theorem State.pop_cases (s : State) :
    (0 < s.sp ∧ s.pop = .ok (s.stack.getD (s.sp - 1) 0, { s with sp := s.sp - 1 })) ∨
    (s.sp = 0 ∧ s.pop = .error ⟨.stackUnderflow, 0⟩) := by
  unfold State.pop
  split
  · next h => exact .inl ⟨h, rfl⟩
  · next h => exact .inr ⟨Nat.eq_zero_of_not_pos h, rfl⟩

/-! ## The unknown opcode -/

/-- Everything the unknown-opcode action can do. -/
theorem unknownOpcode_cases (limit : Option Nat) (op : Byte) (s : State) :
    (∃ l, limit = some l ∧ l < s.unk + 1 ∧
      unknownOpcode limit op s = ({ s with unk := s.unk + 1 } : State).raise ⟨.unrecognizedOpcode, op.toNat⟩) ∨
    ((∀ l, limit = some l → s.unk + 1 ≤ l) ∧
      unknownOpcode limit op s = { s with unk := s.unk + 1, pc := s.pc + 1 }) := by
  cases limit with
  | none => exact .inr ⟨by simp, rfl⟩
  | some l =>
    simp only [unknownOpcode]
    split
    · next h => exact .inl ⟨l, rfl, h, rfl⟩
    · next h => exact .inr ⟨fun l' hl => by cases hl; omega, rfl⟩

/-! ## The shapes of the instruction families -/

/-- Everything a store of an immediate can do. -/
theorem storeValue_cases (ra : Byte) (v : Value) (n : Nat) (s : State) :
    (∃ d : Fin Config.nreg, ra.toNat = d.val ∧ storeValue ra v n s = .next ((s.setReg d v).advance n)) ∨
    (Config.nreg ≤ ra.toNat ∧ storeValue ra v n s = .next (s.raise ⟨.indexOutOfBounds, ra.toNat⟩)) := by
  unfold storeValue
  cases h : regCheck ra with
  | ok d => exact .inl ⟨d, regCheck_eq_ok.mp h, rfl⟩
  | error r =>
    obtain ⟨h1, rfl⟩ := regCheck_eq_error.mp h
    exact .inr ⟨h1, rfl⟩

/-- Everything a one-register test can do. -/
theorem testReg_cases (f : Value → Bool) (ra : Byte) (n : Nat) (s : State) :
    (∃ i : Fin Config.nreg, ra.toNat = i.val ∧ testReg f ra n s = .next ((s.setZ (f (s.reg i))).advance n)) ∨
    (Config.nreg ≤ ra.toNat ∧ testReg f ra n s = .next (s.raise ⟨.indexOutOfBounds, ra.toNat⟩)) := by
  unfold testReg
  cases h : regCheck ra with
  | ok i => exact .inl ⟨i, regCheck_eq_ok.mp h, rfl⟩
  | error r =>
    obtain ⟨h1, rfl⟩ := regCheck_eq_error.mp h
    exact .inr ⟨h1, rfl⟩

/-- A binary operation whose checks pass: the destination takes the result and Z its zero check. -/
theorem binaryOp_ok {f : Word → Word → Except Raise Word} {ra rb rc : Byte} {s : State} {d i j : Fin Config.nreg}
    {a b r : Word} (hd : ra.toNat = d.val) (hi : rb.toNat = i.val) (hj : rc.toNat = j.val)
    (ha : s.reg i = .int a) (hb : s.reg j = .int b) (hr : f a b = .ok r) :
    binaryOp f ra rb rc s = .next (((s.setReg d (.int r)).setZ (zeroFlag r)).advance 4) := by
  simp [binaryOp, regCheck_ok hd, regCheck_ok hi, regCheck_ok hj, State.intOf_ok ha, State.intOf_ok hb, hr]

/-- Everything a binary operation can do: its result, or the fault entry from the same state. -/
theorem binaryOp_cases (f : Word → Word → Except Raise Word) (ra rb rc : Byte) (s : State) :
    (∃ (d i j : Fin Config.nreg) (a b r : Word), ra.toNat = d.val ∧ rb.toNat = i.val ∧ rc.toNat = j.val ∧
      s.reg i = .int a ∧ s.reg j = .int b ∧ f a b = .ok r ∧
      binaryOp f ra rb rc s = .next (((s.setReg d (.int r)).setZ (zeroFlag r)).advance 4)) ∨
    (∃ r, binaryOp f ra rb rc s = .next (s.raise r)) := by
  rcases settle_cases s (do
    let d ← regCheck ra
    let i ← regCheck rb
    let j ← regCheck rc
    let a ← s.intOf i
    let b ← s.intOf j
    let r ← f a b
    return ((s.setReg d (.int r)).setZ (zeroFlag r)).advance 4) with ⟨t, hx, ht⟩ | ⟨r, -, hr⟩
  · left
    simp only [except_bind_eq_ok, regCheck_eq_ok, State.intOf_eq_ok, except_pure, Except.ok.injEq] at hx
    obtain ⟨d, hd, i, hi, j, hj, a, ha, b, hb, r, hf, rfl⟩ := hx
    exact ⟨d, i, j, a, b, r, hd, hi, hj, ha, hb, hf, ht⟩
  · exact .inr ⟨r, hr⟩

/-- An INC or DEC whose checks pass. -/
theorem unaryOp_ok {f : Word → Word} {ra : Byte} {s : State} {i : Fin Config.nreg} {a : Word}
    (hi : ra.toNat = i.val) (ha : s.reg i = .int a) :
    unaryOp f ra s = .next (((s.setReg i (.int (f a))).setZ (zeroFlag (f a))).advance 2) := by
  simp [unaryOp, regCheck_ok hi, State.intOf_ok ha]

/-- Everything an INC or DEC can do. -/
theorem unaryOp_cases (f : Word → Word) (ra : Byte) (s : State) :
    (∃ (i : Fin Config.nreg) (a : Word), ra.toNat = i.val ∧ s.reg i = .int a ∧
      unaryOp f ra s = .next (((s.setReg i (.int (f a))).setZ (zeroFlag (f a))).advance 2)) ∨
    (∃ r, unaryOp f ra s = .next (s.raise r)) := by
  rcases settle_cases s (do
    let i ← regCheck ra
    let a ← s.intOf i
    return ((s.setReg i (.int (f a))).setZ (zeroFlag (f a))).advance 2) with ⟨t, hx, ht⟩ | ⟨r, -, hr⟩
  · left
    simp only [except_bind_eq_ok, regCheck_eq_ok, State.intOf_eq_ok, except_pure, Except.ok.injEq] at hx
    obtain ⟨i, hi, a, ha, rfl⟩ := hx
    exact ⟨i, a, hi, ha, ht⟩
  · exact .inr ⟨r, hr⟩

/-! ## The step cycle -/

/-- What the wrap does to pc; nothing else changes (R31). -/
theorem State.wrapPc_cases (s : State) :
    (s.pc.toNat < Config.memSize ∧ s.wrapPc = s) ∨ (Config.memSize ≤ s.pc.toNat ∧ s.wrapPc = { s with pc := 0 }) := by
  unfold State.wrapPc
  split
  · next h => exact .inr ⟨h, rfl⟩
  · next h => exact .inl ⟨Nat.not_le.mp h, rfl⟩

theorem State.wrapPc_lt (s : State) : s.wrapPc.pc.toNat < Config.memSize := by
  rcases s.wrapPc_cases with ⟨h, e⟩ | ⟨-, e⟩
  · rwa [e]
  · simp [e]

/-! ## The parameters -/

/-- Only STRING_TOINT, PUSH and CALL look at a parameter. -/
theorem execUnder_eq_exec (p : Params) (i : Instr) (s : State) (h : ∀ ra, i ≠ .stringToInt ra) (h' : ∀ ra, i ≠ .push ra)
    (h'' : ∀ a, i ≠ .call a) : execUnder p i s = exec i s := by
  cases i <;> first | rfl | exact absurd rfl (h _) | exact absurd rfl (h' _) | exact absurd rfl (h'' _)

/-- The meanings under the defaults of R6 are those of `exec`. -/
@[simp] theorem execUnder_default (i : Instr) (s : State) : execUnder Params.default i s = exec i s := by
  cases i <;> rfl

@[simp] theorem rejectedUnder_default (s : State) (r : Reject) :
    rejectedUnder Params.default.unknownLimit s r = rejected s r := rfl

/-- Everything one pass of the cycle can do, under any parameters. -/
theorem cycleUnder_cases (p : Params) (s : State) :
    (s.status = .running ∧ ∃ i, s.wrapPc.fetchUnder p.opMap = .ok i ∧ cycleUnder p s = execUnder p i s.wrapPc) ∨
    (s.status = .running ∧ ∃ r, s.wrapPc.fetchUnder p.opMap = .error r ∧
      cycleUnder p s = .next (rejectedUnder p.unknownLimit s.wrapPc r)) ∨
    (s.status = .halted ∧ cycleUnder p s = .fault .halted) ∨
    (s.status = .faulted ∧ cycleUnder p s = .fault .faulted) := by
  cases hs : s.status with
  | halted => simp [cycleUnder, hs]
  | faulted => simp [cycleUnder, hs]
  | running =>
    cases hf : s.wrapPc.fetchUnder p.opMap with
    | ok i => left; exact ⟨rfl, i, rfl, by simp [cycleUnder, hs, runAt, hf]⟩
    | error r => right; left; exact ⟨rfl, r, rfl, by simp [cycleUnder, hs, runAt, hf]⟩

/-- Everything a step can do. -/
theorem step_cases (s : State) :
    (s.status = .running ∧ ∃ i, s.wrapPc.fetch = .ok i ∧ step s = exec i s.wrapPc) ∨
    (s.status = .running ∧ ∃ r, s.wrapPc.fetch = .error r ∧ step s = .next (rejected s.wrapPc r)) ∨
    (s.status = .halted ∧ step s = .fault .halted) ∨
    (s.status = .faulted ∧ step s = .fault .faulted) := by
  have h := cycleUnder_cases Params.default s
  simp only [execUnder_default, rejectedUnder_default] at h
  exact h

end Sys2Proof.Machine
end

