-- ==== Sys2Proof/Laws/PerInstr.lean ====
section
/-! SUPPORT. One statement per instruction, proved for each constructor. -/

namespace Sys2Proof.Laws.EncodedLength

/-- The encoder writes exactly as many bytes as the length of the instruction says (`30_encoding.md` R71, R74). -/
def Statement (i : Instr) : Prop := (encode i).length = i.length

theorem exit : Statement (.exit) := rfl
theorem intStore (ra : Byte) (imm : Half) : Statement (.intStore ra imm) := rfl
theorem intPrint (ra : Byte) : Statement (.intPrint ra) := rfl
theorem intToString (ra : Byte) : Statement (.intToString ra) := rfl
theorem intRandom (ra : Byte) : Statement (.intRandom ra) := rfl
theorem jmp (target : Half) : Statement (.jmp target) := rfl
theorem jmpz (target : Half) : Statement (.jmpz target) := rfl
theorem jmpnz (target : Half) : Statement (.jmpnz target) := rfl
theorem xor (ra : Byte) (rb : Byte) (rc : Byte) : Statement (.xor ra rb rc) := rfl
theorem add (ra : Byte) (rb : Byte) (rc : Byte) : Statement (.add ra rb rc) := rfl
theorem sub (ra : Byte) (rb : Byte) (rc : Byte) : Statement (.sub ra rb rc) := rfl
theorem mul (ra : Byte) (rb : Byte) (rc : Byte) : Statement (.mul ra rb rc) := rfl
theorem div (ra : Byte) (rb : Byte) (rc : Byte) : Statement (.div ra rb rc) := rfl
theorem inc (ra : Byte) : Statement (.inc ra) := rfl
theorem dec (ra : Byte) : Statement (.dec ra) := rfl
theorem and (ra : Byte) (rb : Byte) (rc : Byte) : Statement (.and ra rb rc) := rfl
theorem or (ra : Byte) (rb : Byte) (rc : Byte) : Statement (.or ra rb rc) := rfl
theorem stringStore (ra : Byte) (text : List Byte) : Statement (.stringStore ra text) := by
  simp [Statement, encode, encodeUnder, Instr.operandBytes, literalBytes, halfBytes, Instr.length]
  omega
theorem stringPrint (ra : Byte) : Statement (.stringPrint ra) := rfl
theorem concat (ra : Byte) (rb : Byte) (rc : Byte) : Statement (.concat ra rb rc) := rfl
theorem system (ra : Byte) : Statement (.system ra) := rfl
theorem stringToInt (ra : Byte) : Statement (.stringToInt ra) := rfl
theorem cmpReg (ra : Byte) (rb : Byte) : Statement (.cmpReg ra rb) := rfl
theorem cmpImm (ra : Byte) (imm : Half) : Statement (.cmpImm ra imm) := rfl
theorem cmpStr (ra : Byte) (text : List Byte) : Statement (.cmpStr ra text) := by
  simp [Statement, encode, encodeUnder, Instr.operandBytes, literalBytes, halfBytes, Instr.length]
  omega
theorem isString (ra : Byte) : Statement (.isString ra) := rfl
theorem isInteger (ra : Byte) : Statement (.isInteger ra) := rfl
theorem nop : Statement (.nop) := rfl
theorem mov (ra : Byte) (rb : Byte) : Statement (.mov ra rb) := rfl
theorem peek (ra : Byte) (rb : Byte) : Statement (.peek ra rb) := rfl
theorem poke (ra : Byte) (rb : Byte) : Statement (.poke ra rb) := rfl
theorem memcpy (ra : Byte) (rb : Byte) (rc : Byte) : Statement (.memcpy ra rb rc) := rfl
theorem push (ra : Byte) : Statement (.push ra) := rfl
theorem pop (ra : Byte) : Statement (.pop ra) := rfl
theorem ret : Statement (.ret) := rfl
theorem call (target : Half) : Statement (.call target) := rfl

end Sys2Proof.Laws.EncodedLength
end

