-- ==== Sys2Proof/Tests/Slice0.lean ====
section
/-! SUPPORT. The model's own tests: the well-formedness check, the decoding of a word of every row, one or two steps per
instruction (expected results from `95_test_vectors.md`, part 2, or from the examples of the instruction files), and a
witness for the hypotheses of every statement. -/

namespace Sys2Proof.Tests

open Sys2Proof.Machine

/-- The state an outcome goes on with; the reset state stands for a stop, which no test below meets. -/
def after : Outcome → State
  | .next s => s
  | .fault _ => State.reset
  | .refused _ => State.reset

/-- The setting of `95_test_vectors.md` part 2: `s` with bytes at pc = 0x0100. -/
def here (s : State) (bs : List Byte) : State := { s with pc := 0x0100, mem := Memory.setBytes s.mem 0x0100 bs }

/-- One step on bytes at pc = 0x0100. -/
def run (s : State) (bs : List Byte) : State := after (step (here s bs))

/-- A fault entry: status Faulted, the record, pc at the opcode. -/
def faultIs (t : State) (c : Cause) (at' : Word) (info : Nat) : Bool :=
  decide (t.status = .faulted ∧ t.fault = some ⟨c, at', info⟩ ∧ t.pc = at')

/-- Reset with `x[1] = Int(a)` and `x[2] = Int(b)`. -/
def ints (a b : Word) : State := (State.reset.setReg 1 (.int a)).setReg 2 (.int b)

/-- Reset with `x[0] = Text(s)` and `x[1] = Text(t)`. -/
def texts (s t : List Byte) : State := (State.reset.setReg 0 (.text s)).setReg 1 (.text t)

/-! ## Well-formedness -/

theorem test_wellFormed_refuses_long_literal :
    (Instr.stringStore 0 (List.replicate 65536 0)).WellFormed = false ∧
    (Instr.cmpStr 0 (List.replicate 65536 0)).WellFormed = false := by
  have h : decide ((List.replicate 65536 (0 : Byte)).length ≤ 65535) = false := by
    rw [List.length_replicate]; decide
  exact ⟨h, h⟩

theorem test_wellFormed_accepts_longest_literal :
    (Instr.stringStore 0 (List.replicate 65535 0)).WellFormed = true ∧
    (Instr.cmpStr 255 (List.replicate 65535 0)).WellFormed = true := by
  have h : decide ((List.replicate 65535 (0 : Byte)).length ≤ 65535) = true := by
    rw [List.length_replicate]; decide
  exact ⟨h, h⟩

theorem test_config_refuses_illegal_parameters :
    Config.Legal 10 65537 1024 = false ∧ Config.Legal 0 65536 1024 = false ∧ Config.Legal 257 65536 1024 = false ∧
    Config.Legal 10 65536 0 = false := by decide

/-! ## Decoding: one word of every row, written from the byte column of R78 and the formats of R71 -/

theorem test_decode_exit : decode [0x00] = .ok (.exit) := by decide
theorem test_decode_intStore : decode [0x01, 0x01, 0x34, 0x12] = .ok (.intStore 1 0x1234) := by decide
theorem test_decode_intPrint : decode [0x02, 0x01] = .ok (.intPrint 1) := by decide
theorem test_decode_intToString : decode [0x03, 0x00] = .ok (.intToString 0) := by decide
theorem test_decode_intRandom : decode [0x04, 0x03] = .ok (.intRandom 3) := by decide
theorem test_decode_jmp : decode [0x10, 0x04, 0x00] = .ok (.jmp 4) := by decide
theorem test_decode_jmpz : decode [0x11, 0x1D, 0x80] = .ok (.jmpz 0x801D) := by decide
theorem test_decode_jmpnz : decode [0x12, 0x04, 0xFF] = .ok (.jmpnz 0xFF04) := by decide
theorem test_decode_xor : decode [0x20, 0x00, 0x01, 0x02] = .ok (.xor 0 1 2) := by decide
theorem test_decode_add : decode [0x21, 0x00, 0x01, 0x02] = .ok (.add 0 1 2) := by decide
theorem test_decode_sub : decode [0x22, 0x02, 0x02, 0x01] = .ok (.sub 2 2 1) := by decide
theorem test_decode_mul : decode [0x23, 0x00, 0x01, 0x02] = .ok (.mul 0 1 2) := by decide
theorem test_decode_div : decode [0x24, 0x00, 0x01, 0x02] = .ok (.div 0 1 2) := by decide
theorem test_decode_inc : decode [0x25, 0x03] = .ok (.inc 3) := by decide
theorem test_decode_dec : decode [0x26, 0x0C] = .ok (.dec 12) := by decide
theorem test_decode_and : decode [0x27, 0x00, 0x01, 0x02] = .ok (.and 0 1 2) := by decide
theorem test_decode_or : decode [0x28, 0x00, 0x01, 0x02] = .ok (.or 0 1 2) := by decide
theorem test_decode_stringStore : decode [0x30, 0x00, 0x02, 0x00, 0x61, 0x62] = .ok (.stringStore 0 [0x61, 0x62]) := by decide
theorem test_decode_stringPrint : decode [0x31, 0x02] = .ok (.stringPrint 2) := by decide
theorem test_decode_concat : decode [0x32, 0x02, 0x00, 0x01] = .ok (.concat 2 0 1) := by decide
theorem test_decode_system : decode [0x33, 0x00] = .ok (.system 0) := by decide
theorem test_decode_stringToInt : decode [0x34, 0x00] = .ok (.stringToInt 0) := by decide
theorem test_decode_cmpReg : decode [0x40, 0x01, 0x02] = .ok (.cmpReg 1 2) := by decide
theorem test_decode_cmpImm : decode [0x41, 0x00, 0x34, 0x12] = .ok (.cmpImm 0 0x1234) := by decide
theorem test_decode_cmpStr : decode [0x42, 0x02, 0x04, 0x00, 0x61, 0x62, 0x63, 0x64] = .ok (.cmpStr 2 [0x61, 0x62, 0x63, 0x64]) := by decide
theorem test_decode_isString : decode [0x43, 0x00] = .ok (.isString 0) := by decide
theorem test_decode_isInteger : decode [0x44, 0xFF] = .ok (.isInteger 255) := by decide
theorem test_decode_nop : decode [0x50] = .ok (.nop) := by decide
theorem test_decode_mov : decode [0x51, 0x00, 0x01] = .ok (.mov 0 1) := by decide
theorem test_decode_peek : decode [0x60, 0x02, 0x01] = .ok (.peek 2 1) := by decide
theorem test_decode_poke : decode [0x61, 0x00, 0x01] = .ok (.poke 0 1) := by decide
theorem test_decode_memcpy : decode [0x62, 0x00, 0x01, 0x02] = .ok (.memcpy 0 1 2) := by decide
theorem test_decode_push : decode [0x70, 0x00] = .ok (.push 0) := by decide
theorem test_decode_pop : decode [0x71, 0x03] = .ok (.pop 3) := by decide
theorem test_decode_ret : decode [0x72] = .ok (.ret) := by decide
theorem test_decode_call : decode [0x73, 0x08, 0x00] = .ok (.call 8) := by decide

theorem test_decode_rejects :
    decode [0x05] = .error (.unknownOpcode 0x05) ∧ decode [0xFF, 0x00] = .error (.unknownOpcode 0xFF) ∧
    decode [] = .error (.truncated 0) ∧ decode [0x21, 0x00, 0x01] = .error (.truncated 3) ∧
    decode [0x30, 0x00, 0x05, 0x00, 0x41] = .error (.truncated 5) := by decide

/-- The host's word: byte 0 is bits 7 to 0; bits above `nbits` are 0. -/
theorem test_decodeTableWord :
    decodeTableWord 32 0x02010021 = some (.add 0 1 2) ∧ decodeTableWord 8 0x21 = some (.add 0 0 0) ∧
    decodeTableWord 32 0x00020130 = some (.stringStore 1 [0, 0]) ∧ decodeTableWord 8 0xFF = none := by decide

/-! ## Steps (vectors of `95_test_vectors.md` part 2) -/

/-- 2.1: status Halted, pc 0x0101; then no step follows (R35). -/
theorem test_exit :
    let t := run State.reset [0x00]
    t.status = .halted ∧ t.pc = 0x0101 ∧ (match step t with | .fault .halted => true | _ => false) = true := by decide

/-- 2.1. -/
theorem test_nop :
    (run State.reset [0x50]).pc = 0x0101 ∧ (run State.reset [0x50]).status = .running := by decide

/-- 2.1: the 20th is a no-op, the 21st faults with the count kept. -/
theorem test_unknown :
    let s19 : State := { State.reset with unk := 19 }
    let s20 : State := { State.reset with unk := 20 }
    (run s19 [0x05]).unk = 20 ∧ (run s19 [0x05]).pc = 0x0101 ∧ (run s20 [0x05]).unk = 21 ∧
      faultIs (run s20 [0x05]) .unrecognizedOpcode 0x0100 0x05 = true ∧ (unknownOpcode none 0x05 s20).pc = 1 := by decide

/-- 2.1: pc = 0x12345 wraps to 0, not to its remainder, and EXIT ends at 1. -/
theorem test_wrap :
    let t := after (step { State.reset with pc := 0x12345 })
    t.pc = 1 ∧ t.status = .halted := by decide

/-- 2.2: the last register, the largest immediate; a Text destination and Z kept. -/
theorem test_intStore :
    (run State.reset [0x01, 0x01, 0x34, 0x12]).reg 1 = .int 4660 ∧ (run State.reset [0x01, 0x09, 0xFF, 0xFF]).reg 9 = .int 65535 ∧
    (run ((State.reset.setReg 2 (.text [0x71])).setZ true) [0x01, 0x02, 0x00, 0x00]).reg 2 = .int 0 ∧
    (run ((State.reset.setReg 2 (.text [0x71])).setZ true) [0x01, 0x02, 0x00, 0x00]).z = true := by decide

/-- 2.2. -/
theorem test_intStore_index :
    faultIs (run State.reset [0x01, 0x0A, 0x00, 0x00]) .indexOutOfBounds 0x0100 10 = true ∧
    faultIs (run State.reset [0x01, 0xFF, 0x00, 0x00]) .indexOutOfBounds 0x0100 255 = true := by decide

/-- 2.2: an embedded zero byte; the empty text. -/
theorem test_stringStore :
    (run State.reset [0x30, 0x03, 0x03, 0x00, 0x41, 0x00, 0x42]).reg 3 = .text [0x41, 0x00, 0x42] ∧
    (run State.reset [0x30, 0x03, 0x03, 0x00, 0x41, 0x00, 0x42]).pc = 0x0107 ∧
    (run State.reset [0x30, 0x00, 0x00, 0x00]).reg 0 = .text [] ∧ (run State.reset [0x30, 0x00, 0x00, 0x00]).pc = 0x0104 := by decide

/-- 2.2, 2.6: operands beyond the bound fault, before the index check and whether or not a branch is taken. -/
theorem test_operand_fetch :
    let top (pc : Word) (bs : List Byte) : State := after (step { State.reset with pc := pc, mem := Memory.setBytes [] pc.toNat bs })
    faultIs (top 0xFFFD [0x01, 0x01, 0x34]) .addressOutOfRange 0xFFFD 0x10000 = true ∧
      faultIs (top 0xFFFC [0x30, 0x0A, 0x09, 0x00]) .addressOutOfRange 0xFFFC 0x10000 = true ∧
      faultIs (top 0xFFFE [0x11, 0x04]) .addressOutOfRange 0xFFFE 0x10000 = true ∧
      (top 0xFFF8 [0x30, 0x00, 0x04, 0x00, 0x41, 0x42, 0x43, 0x44]).pc = 0x10000 := by decide

/-- 2.3. -/
theorem test_intPrint :
    (run (ints 4660 0) [0x02, 0x01]).trace = [.outInt 4660] ∧
    faultIs (run (texts [] [0x61]) [0x02, 0x01]) .typeMismatch 0x0100 1 = true := by decide

/-- 2.3. -/
theorem test_stringPrint :
    (run (texts [] []) [0x31, 0x01]).trace = [.outText []] ∧
    faultIs (run State.reset [0x31, 0x02]) .typeMismatch 0x0100 2 = true := by decide

/-- 2.3. -/
theorem test_intToString :
    (run (ints 4294967295 0) [0x03, 0x01]).reg 1 = .text [0x34, 0x32, 0x39, 0x34, 0x39, 0x36, 0x37, 0x32, 0x39, 0x35] ∧
    (run ((ints 0 0).setZ true) [0x03, 0x01]).reg 1 = .text [0x30] ∧ (run ((ints 0 0).setZ true) [0x03, 0x01]).z = true := by decide

/-- 2.3, and the default instance of R117: "12ab", "4294967296", " 7". -/
theorem test_stringToInt :
    (run (texts [0x31, 0x32, 0x61, 0x62] []) [0x34, 0x00]).reg 0 = .int 12 ∧
    (run (texts [0x34, 0x32, 0x39, 0x34, 0x39, 0x36, 0x37, 0x32, 0x39, 0x36] []) [0x34, 0x00]).reg 0 = .int 0 ∧
    (run (texts [0x20, 0x37] []) [0x34, 0x00]).reg 0 = .int 0 := by decide

/-- 2.3: the register takes the draw, whatever it held, and the next execution takes the next one (R14). -/
theorem test_intRandom :
    let t := run (State.reset.setReg 3 (.text [0x78])) [0x04, 0x03]
    t.reg 3 = .int (immWord (Config.draw 0)) ∧ t.draws = 1 ∧ t.pc = 0x0102 := by
  refine ⟨rfl, rfl, rfl⟩

/-- 2.3. -/
theorem test_intRandom_index :
    faultIs (run State.reset [0x04, 0x0A]) .indexOutOfBounds 0x0100 10 = true := by decide

/-- 2.4. -/
theorem test_add :
    (run (ints 5 4294967291) [0x21, 0x00, 0x01, 0x02]).reg 0 = .int 0 ∧ (run (ints 5 4294967291) [0x21, 0x00, 0x01, 0x02]).z = true ∧
    (run (ints 4294967295 2) [0x21, 0x00, 0x01, 0x02]).reg 0 = .int 1 ∧ (run (ints 4294967295 2) [0x21, 0x00, 0x01, 0x02]).z = false := by decide

/-- 2.4. -/
theorem test_sub :
    (run (ints 3 5) [0x22, 0x00, 0x01, 0x02]).reg 0 = .int 4294967294 ∧ (run (ints 3 5) [0x22, 0x00, 0x01, 0x02]).z = false ∧
    (run (ints 7 7) [0x22, 0x00, 0x01, 0x02]).reg 0 = .int 0 ∧ (run (ints 7 7) [0x22, 0x00, 0x01, 0x02]).z = true := by decide

/-- 2.4. -/
theorem test_mul :
    (run (ints 65537 65535) [0x23, 0x00, 0x01, 0x02]).reg 0 = .int 4294967295 ∧ (run (ints 65537 65535) [0x23, 0x00, 0x01, 0x02]).z = false ∧
    (run (ints 65536 65536) [0x23, 0x00, 0x01, 0x02]).reg 0 = .int 0 ∧ (run (ints 65536 65536) [0x23, 0x00, 0x01, 0x02]).z = true := by decide

/-- 2.4. -/
theorem test_div :
    (run (ints 4294967291 5) [0x24, 0x00, 0x01, 0x02]).reg 0 = .int 858993458 ∧ (run (ints 4294967291 5) [0x24, 0x00, 0x01, 0x02]).z = false ∧
    (run (ints 2 7) [0x24, 0x00, 0x01, 0x02]).reg 0 = .int 0 ∧ (run (ints 2 7) [0x24, 0x00, 0x01, 0x02]).z = true := by decide

/-- 2.4, and a Text divisor is TypeMismatch, not DivisionByZero. -/
theorem test_div_zero :
    faultIs (run (ints 0 0) [0x24, 0x00, 0x01, 0x02]) .divisionByZero 0x0100 0 = true ∧
    faultIs (run ((ints 7 0).setReg 2 (.text [0x30])) [0x24, 0x00, 0x01, 0x02]) .typeMismatch 0x0100 2 = true := by decide

/-- 2.4. -/
theorem test_xor :
    (run (ints 0x00FF 0x0F0F) [0x20, 0x00, 0x01, 0x02]).reg 0 = .int 0x0FF0 ∧ (run (ints 0x00FF 0x0F0F) [0x20, 0x00, 0x01, 0x02]).z = false ∧
    (run (ints 0xABCD 0xABCD) [0x20, 0x00, 0x01, 0x02]).reg 0 = .int 0 ∧ (run (ints 0xABCD 0xABCD) [0x20, 0x00, 0x01, 0x02]).z = true := by decide

/-- 2.4. -/
theorem test_and :
    (run (ints 0x00FF 0x0F0F) [0x27, 0x00, 0x01, 0x02]).reg 0 = .int 0x000F ∧ (run (ints 0x00FF 0x0F0F) [0x27, 0x00, 0x01, 0x02]).z = false ∧
    (run (ints 0x00F0 0x0F0F) [0x27, 0x00, 0x01, 0x02]).reg 0 = .int 0 ∧ (run (ints 0x00F0 0x0F0F) [0x27, 0x00, 0x01, 0x02]).z = true := by decide

/-- 2.4. -/
theorem test_or :
    (run (ints 0x00FF 0x0F0F) [0x28, 0x00, 0x01, 0x02]).reg 0 = .int 0x0FFF ∧ (run (ints 0x00FF 0x0F0F) [0x28, 0x00, 0x01, 0x02]).z = false ∧
    (run (ints 0 0) [0x28, 0x00, 0x01, 0x02]).reg 0 = .int 0 ∧ (run (ints 0 0) [0x28, 0x00, 0x01, 0x02]).z = true := by decide

/-- 2.4: index before kind, first source first; a source that is also the destination. -/
theorem test_add_checks :
    faultIs (run (texts [0x61] [0x62]) [0x21, 0x0A, 0x01, 0x02]) .indexOutOfBounds 0x0100 10 = true ∧
    faultIs (run ((ints 0 0).setReg 2 (.text [])) [0x21, 0x00, 0x01, 0x02]) .typeMismatch 0x0100 2 = true ∧
    (run (ints 4 0) [0x21, 0x01, 0x01, 0x01]).reg 1 = .int 8 := by decide

/-- 2.4. -/
theorem test_inc :
    (run (ints 4294967295 0) [0x25, 0x01]).reg 1 = .int 0 ∧ (run (ints 4294967295 0) [0x25, 0x01]).z = true ∧
    faultIs (run (texts [] [0x39]) [0x25, 0x01]) .typeMismatch 0x0100 1 = true := by decide

/-- 2.4. -/
theorem test_dec :
    (run ((ints 0 1).setZ true) [0x26, 0x01]).reg 1 = .int 4294967295 ∧ (run ((ints 0 1).setZ true) [0x26, 0x01]).z = false ∧
    (run (ints 0 1) [0x26, 0x02]).reg 2 = .int 0 ∧ (run (ints 0 1) [0x26, 0x02]).z = true := by decide

/-- 2.5. -/
theorem test_concat :
    (run (texts [0x61, 0x62] [0x63, 0x64]) [0x32, 0x02, 0x00, 0x01]).reg 2 = .text [0x61, 0x62, 0x63, 0x64] ∧
    (run (texts [0x61, 0x62] []) [0x32, 0x00, 0x00, 0x00]).reg 0 = .text [0x61, 0x62, 0x61, 0x62] ∧
    faultIs (run State.reset [0x32, 0x02, 0x00, 0x01]) .typeMismatch 0x0100 0 = true := by decide

/-- 2.5. -/
theorem test_system :
    (run (texts [0x6C, 0x73] []) [0x33, 0x00]).trace = [.system [0x6C, 0x73]] ∧
    faultIs (run State.reset [0x33, 0x00]) .typeMismatch 0x0100 0 = true := by decide

/-- 2.6. -/
theorem test_jmp :
    (run State.reset [0x10, 0x04, 0x00]).pc = 4 ∧ (run State.reset [0x10, 0xFF, 0xFF]).pc = 0xFFFF := by decide

/-- 2.6. -/
theorem test_jmpz :
    (run (State.reset.setZ true) [0x11, 0x1D, 0x00]).pc = 0x001D ∧ (run State.reset [0x11, 0x1D, 0x00]).pc = 0x0103 := by decide

/-- 2.6. -/
theorem test_jmpnz :
    (run (State.reset.setZ true) [0x12, 0x04, 0x00]).pc = 0x0103 ∧ (run State.reset [0x12, 0x04, 0x00]).pc = 4 := by decide

/-- 2.7: equal texts, an Integer against a Text. -/
theorem test_cmpReg :
    (run (ints 7 7) [0x40, 0x01, 0x02]).z = true ∧ (run (texts [0x61] [0x61, 0x62]) [0x40, 0x00, 0x01]).z = false ∧
    (run (texts [] []) [0x40, 0x00, 0x01]).z = true ∧ (run ((texts [0x30] []).setZ true) [0x40, 0x02, 0x00]).z = false := by decide

/-- 2.7: all 32 bits count; a Text is not equal and does not fault. -/
theorem test_cmpImm :
    (run (ints 0x1234 0) [0x41, 0x01, 0x34, 0x12]).z = true ∧ (run (ints 65536 0) [0x41, 0x01, 0x00, 0x00]).z = false ∧
    (run ((texts [] []).setZ true) [0x41, 0x01, 0x00, 0x00]).z = false := by decide

/-- 2.7: the literal is skipped in every case. -/
theorem test_cmpStr :
    (run (texts [0x61, 0x62] []) [0x42, 0x00, 0x02, 0x00, 0x61, 0x62]).z = true ∧ (run (texts [] []) [0x42, 0x00, 0x00, 0x00]).z = true ∧
    (run (State.reset.setZ true) [0x42, 0x02, 0x01, 0x00, 0x61]).z = false ∧
    (run (State.reset.setZ true) [0x42, 0x02, 0x01, 0x00, 0x61]).pc = 0x0105 := by decide

/-- 2.7. -/
theorem test_isString :
    (run (texts [] []) [0x43, 0x00]).z = true ∧ (run (State.reset.setZ true) [0x43, 0x00]).z = false := by decide

/-- 2.7. -/
theorem test_isInteger :
    (run State.reset [0x44, 0x00]).z = true ∧ (run ((texts [0x35] []).setZ true) [0x44, 0x00]).z = false := by decide

/-- 2.8; the first bad index is reported. -/
theorem test_mov :
    (run (texts [0x74] [0x68, 0x69]) [0x51, 0x00, 0x01]).reg 0 = .text [0x68, 0x69] ∧
    (run (texts [0x74] [0x68, 0x69]) [0x51, 0x00, 0x01]).reg 1 = .text [0x68, 0x69] ∧
    faultIs (run State.reset [0x51, 0x0B, 0x0A]) .indexOutOfBounds 0x0100 11 = true := by decide

/-- 2.9: its own opcode; no wrap of the address. -/
theorem test_peek :
    (run (ints 0x0100 0) [0x60, 0x01, 0x01]).reg 1 = .int 0x60 ∧
    faultIs (run (ints 0x10000 0) [0x60, 0x02, 0x01]) .addressOutOfRange 0x0100 0x10000 = true ∧
    faultIs (run (ints 4294967295 0) [0x60, 0x02, 0x01]) .addressOutOfRange 0x0100 4294967295 = true := by decide

/-- 2.9: the low byte, at the address in the second register. -/
theorem test_poke :
    Memory.get (run (ints 0x1234 0x0200) [0x61, 0x01, 0x02]).mem 0x0200 = 0x34 ∧
    faultIs (run (ints 1 0x10000) [0x61, 0x01, 0x02]) .addressOutOfRange 0x0100 0x10000 = true ∧
    (after (step (run (ints 0 0x0103) [0x61, 0x01, 0x02, 0x50]))).status = .halted := by decide

/-- The state of the MEMCPY vectors: `x[0] = d`, `x[1] = a`, `x[2] = n`, and four bytes at 0x0300. -/
def copySetting (d a n : Word) : State :=
  { (ints a n).setReg 0 (.int d) with mem := Memory.setBytes [] 0x0300 [0x41, 0x42, 0x43, 0x44] }

/-- The four bytes at 0x0300. -/
def fourBytes (t : State) : List Byte := [0x0300, 0x0301, 0x0302, 0x0303].map (Memory.get t.mem)

/-- 2.9: overlap upward repeats the first byte, overlap downward moves. -/
theorem test_memcpy :
    fourBytes (run (copySetting 0x0301 0x0300 3) [0x62, 0x00, 0x01, 0x02]) = [0x41, 0x41, 0x41, 0x41] ∧
    fourBytes (run (copySetting 0x0300 0x0301 3) [0x62, 0x00, 0x01, 0x02]) = [0x42, 0x43, 0x44, 0x44] := by decide

/-- 2.9: no bytes, no check; the destination range first; then the source range. -/
theorem test_memcpy_ranges :
    (run (copySetting 0x20000 0x30000 0) [0x62, 0x00, 0x01, 0x02]).pc = 0x0104 ∧
    faultIs (run (copySetting 0xFFFF 0x30000 2) [0x62, 0x00, 0x01, 0x02]) .addressOutOfRange 0x0100 0xFFFF = true ∧
    faultIs (run (copySetting 0 0xFFFF 2) [0x62, 0x00, 0x01, 0x02]) .addressOutOfRange 0x0100 0xFFFF = true := by decide

/-- Reset with `n` occupied cells. -/
def depth (n : Nat) : State := { State.reset with sp := n }

/-- 2.10: the 1024th value fits, the 1025th does not. -/
theorem test_push :
    (run { ints 7 0 with sp := 1023 } [0x70, 0x01]).sp = 1024 ∧
    faultIs (run (depth 1024) [0x70, 0x00]) .stackOverflow 0x0100 0 = true ∧ (run (ints 7 0) [0x70, 0x01]).stack[0]? = some 7 := by decide

/-- 2.10: index before underflow; a push then a pop. -/
theorem test_pop :
    faultIs (run State.reset [0x71, 0x03]) .stackUnderflow 0x0100 0 = true ∧
    faultIs (run State.reset [0x71, 0x0A]) .indexOutOfBounds 0x0100 10 = true ∧
    (run (run (ints 4294967295 0) [0x70, 0x01]) [0x71, 0x03]).reg 3 = .int 4294967295 := by decide

/-- 2.10. -/
theorem test_call :
    (run State.reset [0x73, 0x08, 0x00]).stack[0]? = some 0x0103 ∧ (run State.reset [0x73, 0x08, 0x00]).sp = 1 ∧
    (run State.reset [0x73, 0x08, 0x00]).pc = 8 ∧ faultIs (run (depth 1024) [0x73, 0x08, 0x00]) .stackOverflow 0x0100 0 = true := by decide

/-- 2.10: a popped value beyond the bound is assigned as it is. -/
theorem test_ret :
    faultIs (run State.reset [0x72]) .stackUnderflow 0x0100 0 = true ∧
    (run (run (ints 0x10000 0) [0x70, 0x01]) [0x72]).pc = 0x10000 := by decide

/-- R12, R230: the image, then MEM_FILL. -/
theorem test_boot :
    let t := after (boot Config.Embedding.default [0x50, 0x01])
    Memory.get t.mem 1 = 0x01 ∧ Memory.get t.mem 2 = 0x00 ∧ Memory.wf t.mem = true ∧
      (match boot Config.Embedding.default [] with | .refused .emptyImage => true | _ => false) = true := by decide

/-- R110 example: 4660 shows as 0x1234 under the default RENDER_INT. -/
theorem test_rendering :
    Event.shown (.outInt 4660) = [0x30, 0x78, 0x31, 0x32, 0x33, 0x34] ∧ Event.shown (.outInt 0) = [0x30, 0x78, 0x30, 0x30, 0x30, 0x30] ∧
    Event.shown (.outInt 0xABCDE) = [0x30, 0x78, 0x41, 0x42, 0x43, 0x44, 0x45] := by decide

/-- The host places ADD r3, r1, r2 and the next step runs it. -/
theorem test_withFetchWord :
    let t := after (step ((ints 2 3).withFetchWord 32 0x02010321))
    t.reg 3 = .int 5 ∧ t.pc = 4 := by decide

/-- The default map with the bytes of ADD and SUB exchanged: another table that R78 allows. -/
def exchanged : OpMap
  | .add => 0x22
  | .sub => 0x21
  | o => OpMap.default o

theorem exchanged_legal : exchanged.Legal := by
  have h : ∀ o, exchanged.lookup (exchanged o) = some o := fun o => by cases o <;> decide
  exact ⟨fun o p e => Option.some.inj ((h o).symm.trans (e ▸ h p)), rfl⟩

/-- Parameters that differ from the defaults in every respect the engine can show: the exchanged map, an inactive counter,
fill 0x50, one stack cell, a PARSE_INT that answers 7. -/
def otherParams : Params :=
  { Params.default with opMap := exchanged, unknownLimit := none, memFill := 0x50, stackDepth := 1, parseInt := fun _ => 7 }

/-- R6, R36, R85, R113: the parameters are arguments of the cycle. -/
theorem test_parameters :
    (after (cycleUnder otherParams (here (texts [0x31] []) [0x34, 0x00]))).reg 0 = .int 7 ∧
    faultIs (after (cycleUnder otherParams (here (depth 1) [0x70, 0x00]))) .stackOverflow 0x0100 0 = true ∧
    (after (cycleUnder otherParams (here { State.reset with unk := 99 } [0x05]))).unk = 100 ∧
    (after (cycleUnder otherParams (here { State.reset with unk := 99 } [0x05]))).pc = 0x0101 ∧
    Event.shownUnder (fun _ => [0x30]) (.outInt 5) = [0x30] := by decide

/-- R41: MEM_FILL and STACK_DEPTH are arguments of the load. -/
theorem test_load_parameters :
    (State.loadUnder otherParams [0x00]).stack = [0] ∧ Memory.get (State.loadUnder otherParams [0x00]).mem 65535 = 0x50 :=
  ⟨rfl, State.loadUnder_get otherParams [0x00] 65535 (by decide)⟩

/-- R78: the opcode map is an argument; under the exchanged one 0x21 subtracts. -/
theorem test_opcode_map :
    decodeBytesUnder exchanged [0x21, 0x00, 0x01, 0x02] = .ok (.sub 0 1 2) ∧ encodeUnder exchanged (.add 0 1 2) = [0x22, 0x00, 0x01, 0x02] ∧
    (after (cycleUnder otherParams (here (ints 3 5) [0x21, 0x00, 0x01, 0x02]))).reg 0 = .int 4294967294 := by decide

/-- R100: after an EXIT registers, Z, stack and memory are visible on the debug port. -/
theorem test_debugPort :
    let v := debugPort (run { (ints 7 0).setZ true with sp := 1, stack := (ints 7 0).stack.set 0 9 } [0x00])
    v.regs[1]? = some (.int 7) ∧ v.z = true ∧ v.stack = [9] ∧ Memory.get v.mem 0x0200 = 0x00 := by decide

/-- Writing MEM_FILL removes the entry, so that equal memories are equal data. -/
theorem test_memory_write_of_fill_unlists :
    Memory.set (Memory.set [] 5 0x41) 5 0x00 = [] ∧ Memory.set (Memory.set [] 9 1) 5 2 = [(5, 2), (9, 1)] := by decide

/-! ## Witnesses: for every statement with hypotheses, states and operands that meet them, clause by clause -/

/-- The inner hypotheses of `EncodedAs` for `bytes`, in the state that has only its first `k` bytes, at the end of the
address space. -/
def cut (bytes : List Byte) (k : Nat) : Bool :=
  let s : State := { State.reset with pc := BitVec.ofNat 32 (65536 - k), mem := Memory.setBytes [] (65536 - k) (bytes.take k) }
  decide (s.status = .running ∧ 0 < k ∧ k < bytes.length ∧ s.pc.toNat + k = Config.memSize ∧
    ∀ j, j < k → bytes[j]? = some (Memory.get s.mem (s.pc.toNat + j)))

/-- The hypotheses of `IndexFaults`, met by the byte `b`. -/
def bad (ops : List Byte) (b : Byte) : Bool := decide (ops.find? badIndex = some b)

/-- The hypotheses of `IntFaults` (`k = holdsText s`) and `TextFaults` (`k = holdsInt s`), met by the byte `b`. -/
def wrong (ops srcs : List Byte) (k : Byte → Bool) (b : Byte) : Bool :=
  decide (ops.find? badIndex = none ∧ srcs.find? k = some b)

/-- What holds of the fetched instruction holds of whatever is fetched. -/
theorem only_fetched {s : State} {i : Instr} {P : Instr → Prop} (h : s.wrapPc.fetch = .ok i) (hp : P i) :
    ∀ j, s.wrapPc.fetch = .ok j → P j := by
  intro j hj; rw [h] at hj; cases hj; exact hp

theorem witness_BootLoadsImageAndResets :
    (let image : List Byte := [0x50]
     1 ≤ image.length ∧ image.length ≤ 65536 ∧ 0 < image.length ∧ image.length ≤ 65535 ∧ 65535 < 65536) ∧
    (List.replicate 65536 (0 : Byte)).length ≤ 65536 :=
  ⟨by decide, Nat.le_of_eq List.length_replicate⟩

theorem witness_BootAcceptsExactlyTheLegalImages :
    ¬ (1 ≤ ([] : List Byte).length ∧ ([] : List Byte).length ≤ 65536) ∧
    ¬ (1 ≤ (List.replicate 65537 (0 : Byte)).length ∧ (List.replicate 65537 (0 : Byte)).length ≤ 65536) :=
  ⟨by decide, by rw [List.length_replicate]; decide⟩

theorem witness_BootRefusesOtherConfigurations :
    (⟨[0x80], .enterFaulted, false, none⟩ : Config.Embedding) ≠ Config.Embedding.default ∧
    (⟨[], .embedder, false, none⟩ : Config.Embedding) ≠ Config.Embedding.default ∧
    (⟨[], .enterFaulted, true, none⟩ : Config.Embedding) ≠ Config.Embedding.default ∧
    (⟨[], .enterFaulted, false, some 255⟩ : Config.Embedding) ≠ Config.Embedding.default := by decide

theorem witness_DecodeReadsBackEncode :
    (Instr.cmpStr 255 (List.replicate 65535 0)).WellFormed = true ∧ (Instr.add 0 255 10).WellFormed = true :=
  ⟨test_wellFormed_accepts_longest_literal.2, rfl⟩

theorem witness_DecodedBytesAreTheEncoding :
    decode [0x21, 0x00, 0x01, 0x02, 0xFF] = .ok (.add 0 1 2) ∧ decode [0x42, 0x02, 0x01, 0x00, 0x61, 0x00] = .ok (.cmpStr 2 [0x61]) := by
  decide

theorem witness_SixteenBitOperandsAreLowByteFirst :
    (half 1 0).toNat = (1 : Byte).toNat + 256 * (0 : Byte).toNat ∧ (half 1 0).toNat ≤ [(0x41 : Byte)].length ∧
    (half 0 0).toNat ≤ ([] : List Byte).length := by decide

/-- A legal map that is not the default, an unmapped byte, and ADD at the end of the address space under that map. -/
theorem witness_AnyLegalOpcodeMapDecodesAndRuns :
    otherParams.opMap = exchanged ∧ (∀ o p, exchanged o = exchanged p → o = p) ∧ exchanged .exit = 0x00 ∧
    (∀ o, exchanged o ≠ 0x05) ∧ otherParams.unknownLimit = none ∧ Params.default.unknownLimit = some 20 ∧
    (0 + 1 ≤ 20 ∧ State.reset.unk = 0) ∧ 20 < ({ State.reset with unk := 20 } : State).unk + 1 ∧
    ((∀ ra, Instr.pop 0 ≠ .stringToInt ra) ∧ (∀ ra, Instr.pop 0 ≠ .push ra) ∧ ∀ a, Instr.pop 0 ≠ .call a) ∧
    (let i : Instr := .add 0 1 2
     let s : State := { State.reset with pc := 0xFFFC, mem := Memory.setBytes [] 0xFFFC (encodeUnder exchanged i) }
     s.status = .running ∧ i.WellFormed = true ∧ s.pc.toNat + (encodeUnder exchanged i).length ≤ 65536 ∧
       ∀ j, j < (encodeUnder exchanged i).length → (encodeUnder exchanged i)[j]? = some (Memory.get s.mem (s.pc.toNat + j))) ∧
    (let s : State := { State.reset with pc := 0xFFFF, mem := Memory.setBytes [] 0xFFFF [0x05] }
     s.status = .running ∧ s.pc.toNat < 65536 ∧ Memory.get s.mem s.pc.toNat = 0x05) :=
  ⟨rfl, exchanged_legal.1, rfl, fun o => by cases o <;> decide, rfl, rfl, by decide, by decide,
    ⟨fun _ h => (nomatch h), fun _ h => (nomatch h), fun _ h => (nomatch h)⟩, by decide, by decide⟩

theorem witness_ExitHaltsAndAdvances :
    0 < (depth 1).sp ∧ ¬ 1 < (depth 1).sp ∧ 1 < [(0 : Word), 0].length := by decide

theorem witness_StepRunsTheDecodedInstruction :
    let s : State := { State.reset with pc := 0xFFFC, mem := Memory.setBytes [] 0xFFFC [0x21, 0x00, 0x01, 0x02] }
    s.status = .running ∧ s.pc.toNat < 65536 ∧
      decodeWith (fun k => Memory.get s.mem (s.pc.toNat + k)) (65536 - s.pc.toNat) = .ok (.add 0 1 2) := by decide

theorem witness_StepRunsTheEncodedInstruction :
    let s : State := { State.reset with pc := 0xFFFC, mem := Memory.setBytes [] 0xFFFC [0x21, 0x00, 0x01, 0x02] }
    s.status = .running ∧ (Instr.add 0 1 2).WellFormed = true ∧ s.pc.toNat + (encode (.add 0 1 2)).length ≤ 65536 ∧
      ∀ j, j < (encode (.add 0 1 2)).length → (encode (.add 0 1 2))[j]? = some (Memory.get s.mem (s.pc.toNat + j)) := by
  decide

theorem witness_OpcodeFetchWrapsAndOperandFetchFaults :
    65536 ≤ ({ State.reset with pc := 65536 } : State).pc.toNat ∧
    (let s : State := { State.reset with pc := 0xFFFF, mem := Memory.setBytes [] 0xFFFF [0x21] }
     s.status = .running ∧ (Instr.add 0 1 2).WellFormed = true ∧ 0 < 1 ∧ 1 < (encode (.add 0 1 2)).length ∧
       65536 ≤ s.pc.toNat + 1 ∧ (∀ j, j < 1 → s.pc.toNat + j < 65536) ∧
       ∀ j, j < 1 → (encode (.add 0 1 2))[j]? = some (Memory.get s.mem (s.pc.toNat + j))) := by decide

theorem witness_UnknownOpcodesCountThenFault :
    (let s : State := here { State.reset with unk := 19 } [0xFF]
     0xFF = Memory.get s.mem s.pc.toNat ∧ s.pc.toNat < 65536 ∧ s.status = .running ∧ s.unk < 20) ∧
    (let s : State := here { State.reset with unk := 20 } [0x05]
     0x05 = Memory.get s.mem s.pc.toNat ∧ s.pc.toNat < 65536 ∧ s.status = .running ∧ 20 ≤ s.unk) ∧
    (∀ i : Instr, i.opcode ≠ 0xFF ∧ i.opcode ≠ 0x05) :=
  ⟨by decide, by decide, fun i => by cases i <;> simp [Instr.opcode, Instr.op, OpMap.default]⟩

theorem witness_StepsOnlyInRunningAndHaltsOnlyByExit :
    (run State.reset [0x00]).status ≠ .running ∧ ∃ t, step State.reset = .next t ∧ t.status = .halted :=
  ⟨by decide, _, rfl, rfl⟩

theorem witness_RunningMachinesAlwaysStep : State.reset.status = .running := rfl

theorem witness_NopOnlyAdvances : ({ State.reset with unk := 19 } : State).unk < 20 := by decide

theorem witness_IntStoreWritesTheImmediate :
    (0x1234 : Half).toNat = (0x34 : Byte).toNat + 256 * (0x12 : Byte).toNat ∧ cut [0x01, 0x01, 0x34, 0x12] 3 = true ∧
    (9 : Byte).toNat = (9 : Fin 10).val ∧ (0x1234 : Word).toNat = (0x1234 : Half).toNat ∧ bad [10] 10 = true := by decide

theorem witness_StringStoreWritesTheLiteral :
    ([0x61, 0x00] : List Byte).length = (2 : Byte).toNat + 256 * (0 : Byte).toNat ∧
    cut ([0x30, 0x00, 0x02, 0x00] ++ [0x61, 0x00]) 5 = true ∧ ([] : List Byte).length = (0 : Byte).toNat + 256 * (0 : Byte).toNat ∧
    (0 : Byte).toNat = (0 : Fin 10).val ∧ bad [255] 255 = true := by decide

theorem witness_PrintsAppendTheirEvent :
    cut [0x02, 0x01] 1 = true ∧ cut [0x31, 0x01] 1 = true ∧ (1 : Byte).toNat = (1 : Fin 10).val ∧
    (ints 4660 0).reg 1 = .int 4660 ∧ (texts [] [0x61]).reg 1 = .text [0x61] ∧ bad [10] 10 = true ∧
    wrong [1] [1] (holdsText (texts [] [0x61])) 1 = true ∧ wrong [1] [1] (holdsInt (ints 4660 0)) 1 = true := by decide

theorem witness_SystemAppendsItsCommand :
    cut [0x33, 0x00] 1 = true ∧ (0 : Byte).toNat = (0 : Fin 10).val ∧ (texts [0x6C, 0x73] []).reg 0 = .text [0x6C, 0x73] ∧
    bad [10] 10 = true ∧ wrong [0] [0] (holdsInt State.reset) 0 = true := by decide

theorem witness_IntToStringWritesTheDecimalText :
    cut [0x03, 0x01] 1 = true ∧ (1 : Byte).toNat = (1 : Fin 10).val ∧ (ints 4294967295 0).reg 1 = .int 4294967295 ∧
    bad [10] 10 = true ∧ wrong [0] [0] (holdsText (texts [0x31] [])) 0 = true := by decide

theorem witness_StringToIntWritesTheParsedValue :
    10 ≤ (10 : Byte).toNat ∧ State.reset.reg 0 = .int 0 ∧ cut [0x34, 0x00] 1 = true ∧ (0 : Byte).toNat = (0 : Fin 10).val ∧ (texts [0x34, 0x32] []).reg 0 = .text [0x34, 0x32] ∧
    bad [10] 10 = true ∧ wrong [0] [0] (holdsInt State.reset) 0 = true := by decide

theorem witness_IntRandomWritesADraw :
    cut [0x04, 0x09] 1 = true ∧ (9 : Byte).toNat = (9 : Fin 10).val ∧ bad [10] 10 = true := by decide

/-- The sources 5 and 4294967291 of R122, the wrapped results of the three operations, and the checks. -/
theorem witness_AddSubMulWriteTheResultAndZ :
    cut [0x21, 0x00, 0x01, 0x02] 3 = true ∧ cut [0x22, 0x00, 0x01, 0x02] 3 = true ∧ cut [0x23, 0x00, 0x01, 0x02] 3 = true ∧
    (0 : Byte).toNat = (0 : Fin 10).val ∧ (1 : Byte).toNat = (1 : Fin 10).val ∧ (2 : Byte).toNat = (2 : Fin 10).val ∧
    (ints 5 4294967291).reg 1 = .int 5 ∧ (ints 5 4294967291).reg 2 = .int 4294967291 ∧
    (0 : Word).toNat = ((5 : Word).toNat + (4294967291 : Word).toNat) % 2 ^ 32 ∧
    (((10 : Word).toNat : Int) = (((5 : Word).toNat : Int) - ((4294967291 : Word).toNat : Int)) % 2 ^ 32) ∧
    (4294967271 : Word).toNat = ((5 : Word).toNat * (4294967291 : Word).toNat) % 2 ^ 32 ∧
    bad [0, 10, 11] 10 = true ∧ wrong [0, 1, 0] [1, 0] (holdsText (texts [0x61] [])) 1 = true := by decide

theorem witness_DivWritesTheQuotientOrFaults :
    cut [0x24, 0x00, 0x01, 0x02] 1 = true ∧ (0 : Byte).toNat = (0 : Fin 10).val ∧ (1 : Byte).toNat = (1 : Fin 10).val ∧
    (2 : Byte).toNat = (2 : Fin 10).val ∧ (ints 7 2).reg 1 = .int 7 ∧ (ints 7 2).reg 2 = .int 2 ∧ (2 : Word).toNat ≠ 0 ∧
    (3 : Word).toNat = (7 : Word).toNat / (2 : Word).toNat ∧ (ints 7 0).reg 2 = .int 0 ∧ (0 : Word).toNat = 0 ∧
    bad [10, 1, 2] 10 = true ∧ wrong [0, 1, 2] [1, 2] (holdsText ((ints 7 0).setReg 2 (.text []))) 2 = true := by decide

/-- The sources 0x00FF and 0x0F0F of R126 to R128. -/
theorem witness_BitwiseOperationsWriteTheResultAndZ :
    cut [0x20, 0x00, 0x01, 0x02] 2 = true ∧ cut [0x27, 0x00, 0x01, 0x02] 2 = true ∧ cut [0x28, 0x00, 0x01, 0x02] 2 = true ∧
    (0 : Byte).toNat = (0 : Fin 10).val ∧ (1 : Byte).toNat = (1 : Fin 10).val ∧ (2 : Byte).toNat = (2 : Fin 10).val ∧
    (ints 0x00FF 0x0F0F).reg 1 = .int 0x00FF ∧ (ints 0x00FF 0x0F0F).reg 2 = .int 0x0F0F ∧
    bad [0, 1, 200] 200 = true ∧ wrong [0, 1, 2] [1, 2] (holdsText (texts [] [0x61])) 1 = true := by decide

/-- Their results, at every bit position. -/
theorem witness_bitwise_results :
    (∀ k, (0x0FF0 : Word).getLsbD k = ((0x00FF : Word).getLsbD k).xor ((0x0F0F : Word).getLsbD k)) ∧
    (∀ k, (0x000F : Word).getLsbD k = ((0x00FF : Word).getLsbD k && (0x0F0F : Word).getLsbD k)) ∧
    (∀ k, (0x0FFF : Word).getLsbD k = ((0x00FF : Word).getLsbD k || (0x0F0F : Word).getLsbD k)) :=
  ⟨fun _ => BitVec.getLsbD_xor (x := 0x00FF#32) (y := 0x0F0F#32), fun _ => BitVec.getLsbD_and (x := 0x00FF#32) (y := 0x0F0F#32),
    fun _ => BitVec.getLsbD_or (x := 0x00FF#32) (y := 0x0F0F#32)⟩

theorem witness_IncDecWriteTheResultAndZ :
    cut [0x25, 0x01] 1 = true ∧ cut [0x26, 0x01] 1 = true ∧ (1 : Byte).toNat = (1 : Fin 10).val ∧
    (ints 4294967295 0).reg 1 = .int 4294967295 ∧ (0 : Word).toNat = ((4294967295 : Word).toNat + 1) % 2 ^ 32 ∧
    (ints 0 0).reg 1 = .int 0 ∧ (((4294967295 : Word).toNat : Int) = (((0 : Word).toNat : Int) - 1) % 2 ^ 32) ∧
    bad [10] 10 = true ∧ wrong [1] [1] (holdsText (texts [] [0x39])) 1 = true := by decide

theorem witness_ConcatWritesBothTexts :
    cut [0x32, 0x02, 0x00, 0x01] 3 = true ∧ (2 : Byte).toNat = (2 : Fin 10).val ∧ (0 : Byte).toNat = (0 : Fin 10).val ∧
    (1 : Byte).toNat = (1 : Fin 10).val ∧ (texts [0x61] []).reg 0 = .text [0x61] ∧ (texts [0x61] []).reg 1 = .text [] ∧
    bad [2, 0, 10] 10 = true ∧ wrong [2, 0, 2] [0, 2] (holdsInt (texts [0x61] [])) 2 = true := by decide

theorem witness_JumpsBranchOnZ :
    (0xFFFF : Half).toNat = (0xFF : Byte).toNat + 256 * (0xFF : Byte).toNat ∧ (65535 : Word).toNat = (0xFFFF : Half).toNat ∧
    cut [0x10, 0xFF, 0xFF] 2 = true ∧ cut [0x11, 0xFF, 0xFF] 1 = true ∧ cut [0x12, 0xFF, 0xFF] 2 = true ∧
    State.reset.z = false ∧ (State.reset.setZ true).z = true := by decide

theorem witness_CmpRegSetsZ :
    cut [0x40, 0x01, 0x02] 2 = true ∧ (1 : Byte).toNat = (1 : Fin 10).val ∧ (2 : Byte).toNat = (2 : Fin 10).val ∧
    bad [10, 11] 10 = true := by decide

theorem witness_CmpImmSetsZ :
    (0x1234 : Half).toNat = (0x34 : Byte).toNat + 256 * (0x12 : Byte).toNat ∧ cut [0x41, 0x00, 0x34, 0x12] 2 = true ∧
    (0 : Byte).toNat = (0 : Fin 10).val ∧ State.reset.reg 0 = .int 0 ∧ (texts [] []).reg 0 = .text [] ∧ bad [10] 10 = true := by
  decide

theorem witness_CmpStrSetsZ :
    ([0x61] : List Byte).length = (1 : Byte).toNat + 256 * (0 : Byte).toNat ∧ cut ([0x42, 0x02, 0x01, 0x00] ++ [0x61]) 4 = true ∧
    (2 : Byte).toNat = (2 : Fin 10).val ∧ bad [10] 10 = true := by decide

theorem witness_TypePredicatesSetZ :
    cut [0x43, 0x00] 1 = true ∧ cut [0x44, 0x00] 1 = true ∧ (0 : Byte).toNat = (0 : Fin 10).val ∧
    (texts [] []).reg 0 = .text [] ∧ State.reset.reg 0 = .int 0 ∧ bad [10] 10 = true := by decide

theorem witness_MovCopiesTheValue :
    cut [0x51, 0x00, 0x09] 2 = true ∧ (0 : Byte).toNat = (0 : Fin 10).val ∧ (9 : Byte).toNat = (9 : Fin 10).val ∧
    bad [0, 10] 10 = true := by decide

theorem witness_PeekReadsTheByte :
    cut [0x60, 0x02, 0x01] 2 = true ∧ (2 : Byte).toNat = (2 : Fin 10).val ∧ (1 : Byte).toNat = (1 : Fin 10).val ∧
    (ints 65535 0).reg 1 = .int 65535 ∧ (65535 : Word).toNat < 65536 ∧ (0 : Word).toNat = (Memory.get (ints 65535 0).mem 65535).toNat ∧
    (ints 65536 0).reg 1 = .int 65536 ∧ 65536 ≤ (65536 : Word).toNat ∧ bad [10, 1] 10 = true ∧
    wrong [2, 1] [1] (holdsText (texts [] [0x61])) 1 = true := by decide

theorem witness_PokeWritesTheByte :
    cut [0x61, 0x01, 0x02] 1 = true ∧ (1 : Byte).toNat = (1 : Fin 10).val ∧ (2 : Byte).toNat = (2 : Fin 10).val ∧
    (ints 0x1234 65535).reg 1 = .int 0x1234 ∧ (ints 0x1234 65535).reg 2 = .int 65535 ∧ (65535 : Word).toNat < 65536 ∧
    (ints 1 65536).reg 2 = .int 65536 ∧ 65536 ≤ (65536 : Word).toNat ∧ bad [1, 10] 10 = true ∧
    wrong [2, 1] [2, 1] (holdsText (texts [] [0x61])) 1 = true := by decide

/-- The overlapping and the disjoint copy, the copy that ends at the bound, the two range faults, no bytes, the checks. -/
theorem witness_MemcpyCopiesAscending :
    cut [0x62, 0x00, 0x01, 0x02] 3 = true ∧ (0 : Byte).toNat = (0 : Fin 10).val ∧ (1 : Byte).toNat = (1 : Fin 10).val ∧
    (2 : Byte).toNat = (2 : Fin 10).val ∧
    (∀ d a n : Word, (copySetting d a n).reg 0 = .int d ∧ (copySetting d a n).reg 1 = .int a ∧ (copySetting d a n).reg 2 = .int n) ∧
    ((0x301 : Word).toNat + (3 : Word).toNat ≤ 65536 ∧ (0x300 : Word).toNat + (3 : Word).toNat ≤ 65536 ∧
      (0x300 : Word).toNat < (0x301 : Word).toNat ∧ (0x301 : Word).toNat < (0x300 : Word).toNat + (3 : Word).toNat ∧ 2 < (3 : Word).toNat) ∧
    ((0xFFFF : Word).toNat + (1 : Word).toNat ≤ 65536 ∧ (0x300 : Word).toNat + (1 : Word).toNat ≤ (0xFFFF : Word).toNat ∧
      0 < (1 : Word).toNat ∧ (0xFFFF : Word).toNat + (1 : Word).toNat ≤ 65536) ∧
    (0 : Word).toNat = 0 ∧ (0 < (2 : Word).toNat ∧ 65536 < (0xFFFF : Word).toNat + (2 : Word).toNat) ∧
    ((0 : Word).toNat + (2 : Word).toNat ≤ 65536 ∧ 65536 < (0xFFFF : Word).toNat + (2 : Word).toNat) ∧
    bad [0, 10, 2] 10 = true ∧ wrong [2, 1, 0] [2, 1, 0] (holdsText (texts [0x61] [])) 1 = true :=
  ⟨by decide, by decide, by decide, by decide, fun _ _ _ => ⟨rfl, rfl, rfl⟩, by decide, by decide, by decide, by decide, by decide,
    by decide, by decide⟩

theorem witness_PushStoresThenIncrements :
    cut [0x70, 0x01] 1 = true ∧ (1 : Byte).toNat = (1 : Fin 10).val ∧ (ints 7 0).reg 1 = .int 7 ∧ (ints 7 0).sp < 1024 ∧
    (depth 1023).reg 1 = .int 0 ∧ (depth 1023).sp < 1024 ∧ (depth 1024).reg 1 = .int 0 ∧ (depth 1024).sp = 1024 ∧
    (depth 0).sp < otherParams.stackDepth ∧ (depth 1).sp = otherParams.stackDepth ∧
    bad [10] 10 = true ∧ wrong [1] [1] (holdsText (texts [] [0x61])) 1 = true := by decide

theorem witness_PopDecrementsThenReads :
    cut [0x71, 0x03] 1 = true ∧ (3 : Byte).toNat = (3 : Fin 10).val ∧ (depth 1).sp = 0 + 1 ∧ (depth 1).stack[0]? = some 0 ∧
    (depth 1024).sp = 1023 + 1 ∧ State.reset.sp = 0 ∧ bad [10] 10 = true := by decide

theorem witness_CallPushesTheReturnAddress :
    (0xFFFF : Half).toNat = (0xFF : Byte).toNat + 256 * (0xFF : Byte).toNat ∧ (65535 : Word).toNat = (0xFFFF : Half).toNat ∧
    cut [0x73, 0xFF, 0xFF] 2 = true ∧ (depth 1023).sp < 1024 ∧ (depth 1024).sp = 1024 ∧
    (depth 0).sp < otherParams.stackDepth ∧ (depth 1).sp = otherParams.stackDepth ∧
    ({ State.reset with pc := 65533 } : State).pc.toNat < 65536 := by decide

theorem witness_RetJumpsToThePoppedValue :
    (depth 1).sp = 0 + 1 ∧ (depth 1).stack[0]? = some 0 ∧ State.reset.sp = 0 := by decide

theorem witness_DecIsTheShortestNumeral :
    0x34#8 ∈ dec 42 ∧ (dec 0).head? = some 0x30#8 := by decide

theorem witness_ParseIntInvertsDec :
    (∀ b ∈ ([0x31, 0x32] : List Byte), 0x30 ≤ b.toNat ∧ b.toNat ≤ 0x39) ∧
    (∀ b : Byte, ([0x3A, 0x31] : List Byte).head? = some b → b.toNat < 0x30 ∨ 0x39 < b.toNat) ∧
    (∀ b : Byte, ([0x2F] : List Byte).head? = some b → b.toNat < 0x30 ∨ 0x39 < b.toNat) := by
  refine ⟨by decide, ?_, ?_⟩ <;> · intro b h; cases h; decide

/-- A step that faults, and a step of an instruction that is no writer. -/
theorem witness_OnlyTheWritersChangeZ :
    (∃ t, step (here (ints 1 0) [0x24, 0x00, 0x01, 0x02]) = .next t ∧ t.status = .faulted) ∧
    (∃ t, step (here State.reset [0x51, 0x00, 0x01]) = .next t) ∧
    ∀ i, (here State.reset [0x51, 0x00, 0x01]).wrapPc.fetch = .ok i → i.writesZ = false :=
  ⟨⟨_, rfl, rfl⟩, ⟨_, rfl⟩, only_fetched (i := .mov 0 1) (by decide) rfl⟩

theorem witness_SequentialAdvanceStaysInBounds :
    let s : State := { State.reset with pc := 0xFFFD, mem := Memory.setBytes [] 0xFFFD [0x51, 0x00, 0x01] }
    (∃ t, step s = .next t ∧ t.status ≠ .faulted) ∧ s.wrapPc.fetch = .ok (.mov 0 1) ∧ (Instr.mov 0 1).assignsPc = false :=
  ⟨⟨_, rfl, by decide⟩, by decide, rfl⟩

theorem witness_OnlyPokeAndMemcpyWriteMemory :
    (∃ t, step (here State.reset [0x70, 0x01]) = .next t) ∧
    ∀ i, (here State.reset [0x70, 0x01]).wrapPc.fetch = .ok i →
      (∀ ra rb, i ≠ .poke ra rb) ∧ (∀ ra rb rc, i ≠ .memcpy ra rb rc) :=
  ⟨⟨_, rfl⟩, only_fetched (i := .push 1) (by decide) ⟨fun _ _ h => (nomatch h), fun _ _ _ h => (nomatch h)⟩⟩

/-- A POP moves only the pointer; a MOV moves neither. -/
theorem witness_OnlyStackInstructionsTouchTheStack :
    (∃ t, step (here (depth 1) [0x71, 0x01]) = .next t) ∧
    (∀ i, (here (depth 1) [0x71, 0x01]).wrapPc.fetch = .ok i → (∀ ra, i ≠ .push ra) ∧ (∀ a, i ≠ .call a)) ∧
    (∃ t, step (here State.reset [0x51, 0x00, 0x01]) = .next t) ∧
    ∀ i, (here State.reset [0x51, 0x00, 0x01]).wrapPc.fetch = .ok i →
      (∀ ra, i ≠ .push ra) ∧ (∀ a, i ≠ .call a) ∧ (∀ ra, i ≠ .pop ra) ∧ i ≠ .ret :=
  ⟨⟨_, rfl⟩, only_fetched (i := .pop 1) (by decide) ⟨fun _ h => (nomatch h), fun _ h => (nomatch h)⟩, ⟨_, rfl⟩,
    only_fetched (i := .mov 0 1) (by decide)
      ⟨fun _ h => (nomatch h), fun _ h => (nomatch h), fun _ h => (nomatch h), fun h => (nomatch h)⟩⟩

theorem witness_TheTraceGrowsByOneEventPerEmitter :
    ∃ t, step (here State.reset [0x02, 0x01]) = .next t ∧ t.trace ≠ (here State.reset [0x02, 0x01]).trace :=
  ⟨_, rfl, by decide⟩

theorem witness_OnlyTheDestinationRegisterChanges :
    (∃ t, step (here State.reset [0x01, 0x03, 0x34, 0x12]) = .next t) ∧
    ∀ i, (here State.reset [0x01, 0x03, 0x34, 0x12]).wrapPc.fetch = .ok i →
      ∀ b, i.destination = some b → b.toNat ≠ (4 : Fin 10).val :=
  ⟨⟨_, rfl⟩, only_fetched (i := .intStore 3 0x1234) (by decide) (fun b h => by cases h; decide)⟩

theorem witness_FaultsArePrecise :
    (∃ t, step (here State.reset [0x72]) = .next t ∧ t.status = .faulted) ∧
    ∃ t, step (here { State.reset with unk := 20 } [0x05]) = .next t ∧ t.status = .faulted :=
  ⟨⟨_, rfl, rfl⟩, _, rfl, rfl⟩

theorem witness_InvariantHoldsAfterBoot : ∃ t, boot Config.Embedding.default [0x50] = .next t := ⟨_, rfl⟩

theorem witness_EveryStepKeepsTheInvariant : Inv State.reset ∧ ∃ t, step State.reset = .next t :=
  ⟨⟨rfl, by decide, fun _ h => (nomatch h), List.length_replicate, Nat.zero_le _,
    fun _ h => by cases h; exact .inl (by decide)⟩, _, rfl⟩

/-- The run of the image that is one EXIT ends after one step. -/
theorem witness_RunsEndHaltedOrFaulted :
    ∃ s t, boot Config.Embedding.default [0x00] = .next s ∧ Runs s t ∧ Ended t :=
  ⟨_, _, rfl, .more .start rfl, fun h => (nomatch h)⟩

theorem witness_PlacedWordIsTheNextInstruction :
    decodeTableWord 32 0x02010021 = some (.add 0 1 2) ∧
    ({ State.reset with pc := 65532 } : State).wrapPc.pc.toNat + (Instr.add 0 1 2).length ≤ 65536 := by decide

theorem witness_CallThenRetResumesAfterTheCall :
    (depth 1023).sp < 1024 ∧ (depth 1023).stack.length = 1024 ∧ ∃ t, exec (.call 8) (depth 1023) = .next t ∧ t.stack = t.stack ∧ t.sp = t.sp :=
  ⟨by decide, List.length_replicate, _, rfl, rfl, rfl⟩

theorem witness_PushThenPopReturnsTheValue :
    (1 : Byte).toNat = (1 : Fin 10).val ∧ (9 : Byte).toNat = (9 : Fin 10).val ∧ (depth 1023).reg 1 = .int 0 ∧
    (depth 1023).sp < 1024 ∧ (depth 1023).stack.length = 1024 :=
  ⟨by decide, by decide, by decide, by decide, List.length_replicate⟩

theorem witness_PokedExitIsFetchedNext :
    let s : State := { ints 0xFF00 65535 with pc := 65532 }
    s.status = .running ∧ (1 : Byte).toNat = (1 : Fin 10).val ∧ (2 : Byte).toNat = (2 : Fin 10).val ∧ s.reg 1 = .int 0xFF00 ∧
      s.reg 2 = .int 65535 ∧ (0xFF00 : Word).toNat % 256 = 0 ∧ (65535 : Word).toNat = s.pc.toNat + 3 ∧ (65535 : Word).toNat < 65536 := by
  decide

end Sys2Proof.Tests
end

/-! PROOF. The decoder on a stream that begins with an instruction's own bytes, under any legal opcode map, and what the
step cycle does with such bytes at pc. -/

section
namespace Sys2Proof

open Machine

/-! ## A stream that begins with given bytes -/

/-- The `avail` bytes of the stream that are there agree with `bs`, as far as `bs` goes. -/
def ReadsPrefix (byte : Nat → Byte) (avail : Nat) (bs : List Byte) : Prop :=
  ∀ k b, bs[k]? = some b → k < avail → byte k = b

/-- A byte list with anything behind it begins with its own bytes. -/
theorem readsPrefix_append (bs rest : List Byte) (avail : Nat) :
    ReadsPrefix (fun k => (bs ++ rest).getD k 0) avail bs := by
  intro k b hb _
  obtain ⟨hk, -⟩ := List.getElem?_eq_some_iff.mp hb
  simp [List.getD_eq_getElem?_getD, List.getElem?_append_left hk, hb]

/-- A stream that shows the bytes below `n` begins with them, when `n` bounds the list or the stream. -/
theorem readsPrefix_of_getElem? {byte : Nat → Byte} {avail n : Nat} {bs : List Byte} (hn : min bs.length avail ≤ n)
    (h : ∀ j, j < n → bs[j]? = some (byte j)) : ReadsPrefix byte avail bs := by
  intro k b hb hk
  obtain ⟨hlen, -⟩ := List.getElem?_eq_some_iff.mp hb
  exact Option.some.inj ((h k (by omega)).symm.trans hb)

/-! ## The formats -/

/-- A format that finds too few bytes reports so whatever instruction it was about to give. -/
theorem needBytes_congr {avail len : Nat} {i j : Instr} (h : len ≤ avail → i = j) :
    needBytes avail len i = needBytes avail len j := by
  rcases needBytes_cases avail len i with ⟨hl, -⟩ | ⟨hl, e⟩
  · rw [h hl]
  · simp [needBytes, hl]

section Formats

variable {byte : Nat → Byte} {avail : Nat} {op a b c : Byte}

theorem formR_of_readsPrefix {mk : Byte → Instr} (h : ReadsPrefix byte avail [op, a]) :
    formR byte avail mk = needBytes avail 2 (mk a) :=
  needBytes_congr fun hl => by rw [h 1 a rfl (by omega)]

theorem formRR_of_readsPrefix {mk : Byte → Byte → Instr} (h : ReadsPrefix byte avail [op, a, b]) :
    formRR byte avail mk = needBytes avail 3 (mk a b) :=
  needBytes_congr fun hl => by rw [h 1 a rfl (by omega), h 2 b rfl (by omega)]

theorem formRRR_of_readsPrefix {mk : Byte → Byte → Byte → Instr} (h : ReadsPrefix byte avail [op, a, b, c]) :
    formRRR byte avail mk = needBytes avail 4 (mk a b c) :=
  needBytes_congr fun hl => by rw [h 1 a rfl (by omega), h 2 b rfl (by omega), h 3 c rfl (by omega)]

theorem formA_of_readsPrefix {mk : Half → Instr} {t : Half} (h : ReadsPrefix byte avail (op :: halfBytes t)) :
    formA byte avail mk = needBytes avail 3 (mk t) :=
  needBytes_congr fun hl => by rw [h 1 _ rfl (by omega), h 2 _ rfl (by omega), half_loByte_hiByte]

theorem formRI_of_readsPrefix {mk : Byte → Half → Instr} {imm : Half} (h : ReadsPrefix byte avail (op :: a :: halfBytes imm)) :
    formRI byte avail mk = needBytes avail 4 (mk a imm) :=
  needBytes_congr fun hl => by
    rw [h 1 _ rfl (by omega), h 2 _ rfl (by omega), h 3 _ rfl (by omega), half_loByte_hiByte]

/-- Format RT: the length field, once it is there, tells how many literal bytes follow (R76). -/
theorem formRT_of_readsPrefix {mk : Byte → List Byte → Instr} {t : List Byte} (ht : t.length ≤ 65535)
    (h : ReadsPrefix byte avail (op :: a :: literalBytes t)) :
    formRT byte avail mk = needBytes avail (4 + t.length) (mk a t) := by
  unfold formRT
  split
  · next hl => simp [needBytes, show avail < 4 + t.length by omega]
  · have hlen : (half (byte 2) (byte 3)).toNat = t.length := by
      rw [h 2 _ rfl (by omega), h 3 _ rfl (by omega), half_loByte_hiByte, BitVec.toNat_ofNat]
      omega
    simp only [hlen]
    refine needBytes_congr fun hl => ?_
    have htext : literalAt byte 4 t.length = t :=
      literalAt_eq_take byte 4 t fun j hj => h (4 + j) t[j] (by simp [literalBytes, halfBytes, Nat.add_comm 4 j]) (by omega)
    rw [h 1 a rfl (by omega), htext]

end Formats

/-! ## The decoder -/

/-- The number of bytes does not depend on the opcode map. -/
theorem encodeUnder_length (m : OpMap) (i : Instr) : (encodeUnder m i).length = i.length := by
  cases i with
  | stringStore ra t => exact Laws.EncodedLength.stringStore ra t
  | cmpStr ra t => exact Laws.EncodedLength.cmpStr ra t
  | _ => rfl

/-- Every instruction has its opcode byte at least. -/
theorem Instr.length_pos (i : Instr) : 0 < i.length := by
  rw [← encodeUnder_length OpMap.default i]
  exact Nat.succ_pos _

/-- The operands an instruction's own bytes give, as far as the stream holds them. -/
theorem decodeOp_of_readsPrefix {m : OpMap} {i : Instr} {byte : Nat → Byte} {avail : Nat} (hw : i.WellFormed = true)
    (h : ReadsPrefix byte avail (encodeUnder m i)) : decodeOp i.op byte avail = needBytes avail i.length i := by
  cases i with
  | exit | nop | ret => rfl
  | intPrint | intToString | intRandom | inc | dec | stringPrint | system | stringToInt | isString | isInteger | push
  | pop => exact formR_of_readsPrefix h
  | cmpReg | mov | peek | poke => exact formRR_of_readsPrefix h
  | xor | add | sub | mul | div | and | or | concat | memcpy => exact formRRR_of_readsPrefix h
  | jmp | jmpz | jmpnz | call => exact formA_of_readsPrefix h
  | intStore | cmpImm => exact formRI_of_readsPrefix h
  | stringStore | cmpStr => exact formRT_of_readsPrefix (of_decide_eq_true hw) h

/-- The decoder on a stream that begins with an instruction's own bytes: the instruction, or the first byte missing (R57). -/
theorem decodeUnder_of_readsPrefix {m : OpMap} (hm : m.Legal) {i : Instr} {byte : Nat → Byte} {avail : Nat} (ha : 0 < avail)
    (hw : i.WellFormed = true) (h : ReadsPrefix byte avail (encodeUnder m i)) :
    decodeUnder m byte avail = needBytes avail i.length i := by
  rw [decodeUnder_mapped hm i.op byte avail ha (h 0 _ rfl ha), decodeOp_of_readsPrefix hw h]

/-- Every encodable instruction is read back from its own bytes, whatever follows, under any legal map. -/
theorem decodeBytesUnder_encodeUnder {m : OpMap} (hm : m.Legal) (i : Instr) (rest : List Byte) (hw : i.WellFormed = true) :
    decodeBytesUnder m (encodeUnder m i ++ rest) = .ok i := by
  have hlen : i.length ≤ (encodeUnder m i ++ rest).length := by simp [encodeUnder_length]
  have hpos := i.length_pos
  rw [decodeBytesUnder, decodeUnder_of_readsPrefix hm (by omega) hw (readsPrefix_append _ _ _)]
  exact (needBytes_eq_ok _ _ _ _).mpr ⟨hlen, rfl⟩

/-- A byte outside the map is an unknown opcode, whatever follows (R79). -/
theorem decodeBytesUnder_unmapped {m : OpMap} (b : Byte) (rest : List Byte) (hb : ∀ o, m o ≠ b) :
    decodeBytesUnder m (b :: rest) = .error (.unknownOpcode b) :=
  decodeUnder_unmapped _ _ (Nat.succ_pos _) hb

namespace Machine

/-! ## The bytes at pc -/

theorem State.wrapPc_of_lt {s : State} (h : s.pc.toNat < Config.memSize) : s.wrapPc = s := by
  rcases s.wrapPc_cases with ⟨-, e⟩ | ⟨h', -⟩
  · exact e
  · omega

/-- The fetch at a pc where an instruction's bytes stand, as far as the address space goes. -/
theorem State.fetchUnder_of_readsPrefix {m : OpMap} (hm : m.Legal) {s : State} {i : Instr} (hw : i.WellFormed = true)
    (hpc : s.pc.toNat < Config.memSize)
    (h : ReadsPrefix s.fetchByte (Config.memSize - s.pc.toNat) (encodeUnder m i)) :
    s.fetchUnder m = needBytes (Config.memSize - s.pc.toNat) i.length i :=
  decodeUnder_of_readsPrefix hm (by omega) hw h

/-- The fetch at a pc where a byte outside the map stands. -/
theorem State.fetchUnder_unmapped {m : OpMap} {s : State} (hpc : s.pc.toNat < Config.memSize)
    (h : ∀ o, m o ≠ s.fetchByte 0) : s.fetchUnder m = .error (.unknownOpcode (s.fetchByte 0)) :=
  decodeUnder_unmapped _ _ (by omega) h

/-- A Running machine at whose pc an instruction is fetched runs it. -/
theorem cycleUnder_of_fetch_ok {p : Params} {s : State} {i : Instr} (hs : s.status = .running)
    (hpc : s.pc.toNat < Config.memSize) (hf : s.fetchUnder p.opMap = .ok i) : cycleUnder p s = execUnder p i s := by
  simp [cycleUnder, hs, State.wrapPc_of_lt hpc, runAt, hf]

/-- A Running machine at whose pc no instruction is fetched takes the action of the rejection. -/
theorem cycleUnder_of_fetch_error {p : Params} {s : State} {r : Reject} (hs : s.status = .running)
    (hpc : s.pc.toNat < Config.memSize) (hf : s.fetchUnder p.opMap = .error r) :
    cycleUnder p s = .next (rejectedUnder p.unknownLimit s r) := by
  simp [cycleUnder, hs, State.wrapPc_of_lt hpc, runAt, hf]

/-- A Running machine with the bytes of an instruction at pc, all inside the address space, runs it. -/
theorem cycleUnder_runs_encoded {p : Params} (hm : p.opMap.Legal) {s : State} {i : Instr} (hs : s.status = .running)
    (hw : i.WellFormed = true) (hfit : s.pc.toNat + (encodeUnder p.opMap i).length ≤ Config.memSize)
    (h : ∀ j, j < (encodeUnder p.opMap i).length →
      (encodeUnder p.opMap i)[j]? = some (Memory.get s.mem (s.pc.toNat + j))) :
    cycleUnder p s = execUnder p i s := by
  have hlen := encodeUnder_length p.opMap i
  have hpos := i.length_pos
  have hpc : s.pc.toNat < Config.memSize := by omega
  have hf := State.fetchUnder_of_readsPrefix hm hw hpc (readsPrefix_of_getElem? (Nat.min_le_left _ _) h)
  exact cycleUnder_of_fetch_ok hs hpc (hf.trans ((needBytes_eq_ok _ _ _ _).mpr ⟨by omega, rfl⟩))

/-- A Running machine where the address space ends before byte `k` of the instruction at pc raises AddressOutOfRange of the
first byte beyond (R57). -/
theorem cycleUnder_truncated {p : Params} (hm : p.opMap.Legal) {s : State} {i : Instr} {k : Nat}
    (hs : s.status = .running) (hw : i.WellFormed = true) (hk : 0 < k) (hlt : k < i.length)
    (hend : s.pc.toNat + k = Config.memSize)
    (h : ∀ j, j < k → (encodeUnder p.opMap i)[j]? = some (Memory.get s.mem (s.pc.toNat + j))) :
    cycleUnder p s = .next (s.raise ⟨.addressOutOfRange, s.pc.toNat + k⟩) := by
  have hpc : s.pc.toNat < Config.memSize := by omega
  have havail : Config.memSize - s.pc.toNat = k := by omega
  have hf := State.fetchUnder_of_readsPrefix hm hw hpc (readsPrefix_of_getElem? (by omega) h)
  rw [havail, needBytes, if_pos hlt] at hf
  exact cycleUnder_of_fetch_error hs hpc hf

/-- A Running machine with a byte outside the map at pc takes the unknown-opcode action (R85). -/
theorem cycleUnder_unmapped {p : Params} {s : State} (hs : s.status = .running) (hpc : s.pc.toNat < Config.memSize)
    (h : ∀ o, p.opMap o ≠ Memory.get s.mem s.pc.toNat) :
    cycleUnder p s = .next (unknownOpcode p.unknownLimit (Memory.get s.mem s.pc.toNat) s) :=
  cycleUnder_of_fetch_error hs hpc (State.fetchUnder_unmapped hpc h)

/-- The unknown-opcode action with an inactive counter, or up to the limit: the byte is counted and skipped. -/
theorem unknownOpcode_skips {limit : Option Nat} {op : Byte} {s : State} (h : ∀ l, limit = some l → s.unk + 1 ≤ l) :
    unknownOpcode limit op s = { s with unk := s.unk + 1, pc := s.pc + 1 } := by
  rcases unknownOpcode_cases limit op s with ⟨l, hl, hlt, -⟩ | ⟨-, e⟩
  · exact absurd (h l hl) (by omega)
  · exact e

/-- The unknown-opcode action above the limit: the fault entry, with the count kept. -/
theorem unknownOpcode_faults {l : Nat} {op : Byte} {s : State} (h : l < s.unk + 1) :
    unknownOpcode (some l) op s = ({ s with unk := s.unk + 1 } : State).raise ⟨.unrecognizedOpcode, op.toNat⟩ := by
  rcases unknownOpcode_cases (some l) op s with ⟨l', hl, -, e⟩ | ⟨hle, -⟩
  · exact e
  · exact absurd (hle l rfl) (by omega)

/-- Settles O60. The four facts about the defaults hold by computation; the clauses about a legal map are the decoder's and
the cycle's lemmas above. -/
theorem anyLegalOpcodeMapDecodesAndRuns : Obligations.AnyLegalOpcodeMapDecodesAndRuns := by
  refine ⟨OpMap.default_legal, rfl, fun _ => rfl, ⟨rfl, rfl⟩, execUnder_eq_exec, ?_⟩
  rintro p m rfl hinj hexit
  have hm : p.opMap.Legal := ⟨hinj, hexit⟩
  refine ⟨fun i rest hw => ⟨rfl, decodeBytesUnder_encodeUnder hm i rest hw⟩, decodeBytesUnder_unmapped,
    fun s i => cycleUnder_runs_encoded hm, ?_⟩
  rintro s op rfl hs hpc hop
  rw [cycleUnder_unmapped hs hpc hop]
  refine ⟨fun hnone => ?_, fun limit hlimit => ⟨fun hle => ?_, fun hlt => ?_⟩⟩
  · rw [hnone, unknownOpcode_skips (by simp)]
  · rw [hlimit, unknownOpcode_skips (by simpa using hle)]
  · rw [hlimit, unknownOpcode_faults hlt]; rfl

end Machine
end Sys2Proof
end

/-! PROOF. An instruction's encoding with its operand-fetch fault, and INT_RANDOM. -/

section
namespace Sys2Proof.Machine

/-- The bytes the default encoder writes for an encodable instruction are its encoding, with the operand-fetch fault of
R57 where the address space ends inside them. -/
theorem encodedAs_of_encode {i : Instr} {bytes : List Byte} (hw : i.WellFormed = true) (hb : encode i = bytes) :
    EncodedAs i bytes := by
  subst hb
  refine ⟨rfl, fun rest => decodeBytesUnder_encodeUnder OpMap.default_legal i rest hw, fun s k hs hk hlt hend h => ?_⟩
  have hlen : (encode i).length = i.length := encodeUnder_length _ i
  exact cycleUnder_truncated OpMap.default_legal hs hw hk (hlen ▸ hlt) hend h

theorem badIndex_iff (b : Byte) : badIndex b = true ↔ Config.nreg ≤ b.toNat := decide_eq_true_iff

/-- The index checks of an instruction with one register operand. -/
theorem indexFaults_singleton {i : Instr} {ra : Byte} {s : State}
    (h : Config.nreg ≤ ra.toNat → exec i s = .next (s.raise ⟨.indexOutOfBounds, ra.toNat⟩)) : IndexFaults i [ra] s := by
  intro b hb
  obtain rfl : b = ra := by simpa using List.mem_of_find?_eq_some hb
  exact h ((badIndex_iff b).mp (List.find?_some hb))

theorem exec_intRandom (ra : Byte) (s : State) : exec (.intRandom ra) s = execIntRandom ra s := rfl

theorem execIntRandom_ok {ra : Byte} {i : Fin Config.nreg} (s : State) (h : ra.toNat = i.val) :
    execIntRandom ra s = .next ((s.draw16.2.setReg i (.int (immWord (Config.draw s.draws)))).advance 2) := by
  simp [execIntRandom, regCheck_ok h, State.draw16]

theorem execIntRandom_badIndex {ra : Byte} (s : State) (h : Config.nreg ≤ ra.toNat) :
    execIntRandom ra s = .next (s.raise ⟨.indexOutOfBounds, ra.toNat⟩) := by
  simp [execIntRandom, regCheck_error h]

/-- Settles O24. The word written is the zero-extended draw, which is why it is at most 65535. -/
theorem intRandomWritesADraw : Obligations.IntRandomWritesADraw := by
  intro ra s
  refine ⟨encodedAs_of_encode rfl rfl, fun i hi => ⟨immWord (Config.draw s.draws), immWord_toNat _, ?_, ?_⟩, ?_⟩
  · have := (Config.draw s.draws).isLt
    rw [immWord_toNat]
    omega
  · rw [exec_intRandom, execIntRandom_ok s hi]
    rfl
  · exact indexFaults_singleton (execIntRandom_badIndex s)

end Sys2Proof.Machine
end

/-! PROOF. Everything a step can do, as one relation between an instruction, the state it begins in and the state it leaves;
from it the growth of the output trace, the invariant along a run, and how runs end. -/

section
namespace Sys2Proof.Machine

/-! ## The checks that pass -/

theorem State.memWrite_eq_ok {s t : State} {a : Word} {b : Byte} :
    s.memWrite a b = .ok t ↔ a.toNat < Config.memSize ∧ t = s.setMem (Memory.set s.mem a.toNat b) := by
  rcases s.memWrite_cases a b with ⟨h, e⟩ | ⟨h, e⟩
  · simp [e, h, eq_comm]
  · simp only [e, reduceCtorEq, false_iff]; omega

theorem rangeCheck_eq_ok {a n : Word} {u : Unit} :
    rangeCheck a n = .ok u ↔ n.toNat = 0 ∨ a.toNat + n.toNat ≤ Config.memSize := by
  rcases rangeCheck_cases a n with ⟨h, e⟩ | ⟨h, h', e⟩
  · simp [e, h]
  · simp only [e, reduceCtorEq, false_iff]; omega

theorem State.push_eq_ok {s t : State} {depth : Nat} {w : Word} :
    s.push depth w = .ok t ↔ s.sp < depth ∧ t = { s with stack := s.stack.set s.sp w, sp := s.sp + 1 } := by
  rcases s.push_cases depth w with ⟨h, e⟩ | ⟨h, e⟩
  · simp [e, h, eq_comm]
  · simp only [e, reduceCtorEq, false_iff]; omega

theorem State.pop_eq_ok {s : State} {p : Word × State} :
    s.pop = .ok p ↔ 0 < s.sp ∧ p = (s.stack.getD (s.sp - 1) 0, { s with sp := s.sp - 1 }) := by
  rcases s.pop_cases with ⟨h, e⟩ | ⟨h, e⟩
  · simp [e, h, eq_comm]
  · simp only [e, reduceCtorEq, false_iff]; omega

/-! ## The effects of the instructions -/

/-- The instructions that put an event on the output port (`00_scope.md` R13). -/
def Emits (i : Instr) : Prop := ∃ ra, i = .intPrint ra ∨ i = .stringPrint ra ∨ i = .system ra

/-- What an instruction can do to a state: the fault entry, or one of the shapes of a completion. The relation keeps what
changes and where; `exec_effect` ties it to `exec`. -/
inductive Effect : Instr → State → State → Prop where
  | raise {i s} (r : Raise) : Effect i s (s.raise r)
  | halt {s} : Effect .exit s (s.halt.advance 1)
  | pass {i s} : Effect i s (s.advance i.length)
  | jump {i s} (a : Word) (hi : i.assignsPc = true) : Effect i s (s.setPc a)
  | write {i s b} {d : Fin Config.nreg} (v : Value) (hb : i.destination = some b) (hd : b.toNat = d.val) :
      Effect i s ((s.setReg d v).advance i.length)
  | compute {i s b} {d : Fin Config.nreg} (v : Value) (z : Bool) (hb : i.destination = some b) (hd : b.toNat = d.val)
      (hz : i.writesZ = true) : Effect i s (((s.setReg d v).setZ z).advance i.length)
  | test {i s} (z : Bool) (hz : i.writesZ = true) : Effect i s ((s.setZ z).advance i.length)
  | emit {i s} (e : Event) (hi : Emits i) : Effect i s ((s.emit e).advance i.length)
  | draw {s ra} {d : Fin Config.nreg} (v : Value) (hd : ra.toNat = d.val) :
      Effect (.intRandom ra) s ((s.draw16.2.setReg d v).advance 2)
  | poke {s ra rb} (a : Nat) (v : Byte) (ha : a < Config.memSize) :
      Effect (.poke ra rb) s ((s.setMem (Memory.set s.mem a v)).advance 3)
  | memcpy {s ra rb rc} (d a n : Nat) (hd : n = 0 ∨ d + n ≤ Config.memSize) :
      Effect (.memcpy ra rb rc) s ((s.setMem (Memory.copyUp s.mem d a n)).advance 4)
  | push {s ra} (w : Word) (hsp : s.sp < Config.stackDepth) :
      Effect (.push ra) s (({ s with stack := s.stack.set s.sp w, sp := s.sp + 1 } : State).advance 2)
  | call {s target} (w a : Word) (hsp : s.sp < Config.stackDepth) :
      Effect (.call target) s (({ s with stack := s.stack.set s.sp w, sp := s.sp + 1 } : State).setPc a)
  | pop {s ra} {d : Fin Config.nreg} (v : Value) (hd : ra.toNat = d.val) (hsp : 0 < s.sp) :
      Effect (.pop ra) s ((({ s with sp := s.sp - 1 } : State).setReg d v).advance 2)
  | ret {s} (a : Word) (hsp : 0 < s.sp) : Effect .ret s (({ s with sp := s.sp - 1 } : State).setPc a)

/-- The answer is a next state in the relation. -/
def Outcome.Effects (i : Instr) (s : State) (o : Outcome) : Prop := ∃ t, o = .next t ∧ Effect i s t

/-- An instruction that ends in `settle` need only be looked at where its checks pass. -/
theorem settle_effects {i : Instr} {s : State} {x : Except Raise State} (h : ∀ t, x = .ok t → Effect i s t) :
    Outcome.Effects i s (settle s x) := by
  rcases settle_cases s x with ⟨t, hx, e⟩ | ⟨r, -, e⟩
  · exact ⟨t, e, h t hx⟩
  · exact ⟨_, e, .raise r⟩

section Families

variable {i : Instr} {s : State} {ra rb rc : Byte}

theorem storeValue_effects (v : Value) {n : Nat} (hd : i.destination = some ra) (hl : i.length = n) :
    Outcome.Effects i s (storeValue ra v n s) := by
  subst hl
  rcases storeValue_cases ra v i.length s with ⟨d, h, e⟩ | ⟨-, e⟩
  · exact ⟨_, e, .write v hd h⟩
  · exact ⟨_, e, .raise _⟩

theorem testReg_effects (f : Value → Bool) {n : Nat} (hz : i.writesZ = true) (hl : i.length = n) :
    Outcome.Effects i s (testReg f ra n s) := by
  subst hl
  rcases testReg_cases f ra i.length s with ⟨d, -, e⟩ | ⟨-, e⟩
  · exact ⟨_, e, .test _ hz⟩
  · exact ⟨_, e, .raise _⟩

theorem binaryOp_effects (f : Word → Word → Except Raise Word) (hd : i.destination = some ra) (hz : i.writesZ = true)
    (hl : i.length = 4) : Outcome.Effects i s (binaryOp f ra rb rc s) := by
  rcases binaryOp_cases f ra rb rc s with ⟨d, _, _, _, _, r, h, -, -, -, -, -, e⟩ | ⟨r, e⟩
  · exact ⟨_, e, hl ▸ .compute _ _ hd h hz⟩
  · exact ⟨_, e, .raise r⟩

theorem unaryOp_effects (f : Word → Word) (hd : i.destination = some ra) (hz : i.writesZ = true) (hl : i.length = 2) :
    Outcome.Effects i s (unaryOp f ra s) := by
  rcases unaryOp_cases f ra s with ⟨d, _, h, -, e⟩ | ⟨r, e⟩
  · exact ⟨_, e, hl ▸ .compute _ _ hd h hz⟩
  · exact ⟨_, e, .raise r⟩

/-- An instruction of one register read through IntOf, whatever it completes with. -/
theorem intOperand_effects {f : Fin Config.nreg → Word → State}
    (h : ∀ d v, ra.toNat = d.val → Effect i s (f d v)) :
    Outcome.Effects i s (settle s do
      let d ← regCheck ra
      let v ← s.intOf d
      return f d v) :=
  settle_effects fun t ht => by
    simp only [except_bind_eq_ok, regCheck_eq_ok, except_pure, Except.ok.injEq] at ht
    obtain ⟨d, hd, v, -, rfl⟩ := ht
    exact h d v hd

/-- An instruction of one register read through TextOf, whatever it completes with. -/
theorem textOperand_effects {f : Fin Config.nreg → List Byte → State}
    (h : ∀ d u, ra.toNat = d.val → Effect i s (f d u)) :
    Outcome.Effects i s (settle s do
      let d ← regCheck ra
      let u ← s.textOf d
      return f d u) :=
  settle_effects fun t ht => by
    simp only [except_bind_eq_ok, regCheck_eq_ok, except_pure, Except.ok.injEq] at ht
    obtain ⟨d, hd, u, -, rfl⟩ := ht
    exact h d u hd

theorem branch_effects (taken : Bool) (target : Half) (hi : i.assignsPc = true) (hl : i.length = 3) :
    Outcome.Effects i s (branch taken target s) := by
  cases taken with
  | true => exact ⟨_, rfl, .jump _ hi⟩
  | false => exact ⟨_, rfl, hl ▸ .pass⟩

end Families

section Single

variable (s : State) (ra rb rc : Byte)

theorem execIntRandom_effects : Outcome.Effects (.intRandom ra) s (execIntRandom ra s) :=
  settle_effects fun t h => by
    simp only [except_bind_eq_ok, regCheck_eq_ok, except_pure, Except.ok.injEq] at h
    obtain ⟨d, hd, rfl⟩ := h
    exact .draw _ hd

theorem execConcat_effects : Outcome.Effects (.concat ra rb rc) s (execConcat ra rb rc s) :=
  settle_effects fun t h => by
    simp only [except_bind_eq_ok, regCheck_eq_ok, except_pure, Except.ok.injEq] at h
    obtain ⟨d, hd, i, -, j, -, u, -, v, -, rfl⟩ := h
    exact .write _ rfl hd

theorem execCmpReg_effects : Outcome.Effects (.cmpReg ra rb) s (execCmpReg ra rb s) :=
  settle_effects fun t h => by
    simp only [except_bind_eq_ok, except_pure, Except.ok.injEq] at h
    obtain ⟨i, -, j, -, rfl⟩ := h
    exact .test _ rfl

theorem execMov_effects : Outcome.Effects (.mov ra rb) s (execMov ra rb s) :=
  settle_effects fun t h => by
    simp only [except_bind_eq_ok, regCheck_eq_ok, except_pure, Except.ok.injEq] at h
    obtain ⟨d, hd, i, -, rfl⟩ := h
    exact .write _ rfl hd

theorem execPeek_effects : Outcome.Effects (.peek ra rb) s (execPeek ra rb s) :=
  settle_effects fun t h => by
    simp only [except_bind_eq_ok, regCheck_eq_ok, except_pure, Except.ok.injEq] at h
    obtain ⟨d, hd, i, -, a, -, b, -, rfl⟩ := h
    exact .write _ rfl hd

theorem execPoke_effects : Outcome.Effects (.poke ra rb) s (execPoke ra rb s) :=
  settle_effects fun t h => by
    simp only [except_bind_eq_ok, State.memWrite_eq_ok, except_pure, Except.ok.injEq] at h
    obtain ⟨i, -, j, -, v, -, a, -, _, ⟨ha, rfl⟩, rfl⟩ := h
    exact .poke _ _ ha

theorem execMemcpy_effects : Outcome.Effects (.memcpy ra rb rc) s (execMemcpy ra rb rc s) :=
  settle_effects fun t h => by
    simp only [except_bind_eq_ok, rangeCheck_eq_ok, except_pure, Except.ok.injEq] at h
    obtain ⟨i, -, j, -, k, -, d, -, a, -, n, -, -, hd, -, -, rfl⟩ := h
    exact .memcpy _ _ _ hd

theorem execPush_effects : Outcome.Effects (.push ra) s (execPush ra s) :=
  settle_effects fun t h => by
    simp only [except_bind_eq_ok, State.push_eq_ok, except_pure, Except.ok.injEq] at h
    obtain ⟨i, -, w, -, _, ⟨hsp, rfl⟩, rfl⟩ := h
    exact .push _ hsp

theorem execPop_effects : Outcome.Effects (.pop ra) s (execPop ra s) :=
  settle_effects fun t h => by
    simp only [except_bind_eq_ok, regCheck_eq_ok, State.pop_eq_ok, except_pure, Except.ok.injEq] at h
    obtain ⟨d, hd, _, ⟨hsp, rfl⟩, rfl⟩ := h
    exact .pop _ hd hsp

theorem execCall_effects (target : Half) : Outcome.Effects (.call target) s (execCall target s) :=
  settle_effects fun t h => by
    simp only [except_bind_eq_ok, State.push_eq_ok, except_pure, Except.ok.injEq] at h
    obtain ⟨_, ⟨hsp, rfl⟩, rfl⟩ := h
    exact .call _ _ hsp

theorem execRet_effects : Outcome.Effects .ret s (execRet s) :=
  settle_effects fun t h => by
    simp only [except_bind_eq_ok, State.pop_eq_ok, except_pure, Except.ok.injEq] at h
    obtain ⟨_, ⟨hsp, rfl⟩, rfl⟩ := h
    exact .ret _ hsp

end Single

/-- Everything an instruction can do: it always answers a next state, and the relation says which. -/
theorem exec_effect (i : Instr) (s : State) : Outcome.Effects i s (exec i s) := by
  cases i with
  | exit => exact ⟨_, rfl, .halt⟩
  | nop => exact ⟨_, rfl, .pass⟩
  | intStore | stringStore => exact storeValue_effects _ rfl rfl
  | intPrint ra => exact intOperand_effects fun _ _ _ => .emit _ ⟨ra, .inl rfl⟩
  | stringPrint ra => exact textOperand_effects fun _ _ _ => .emit _ ⟨ra, .inr (.inl rfl)⟩
  | intToString ra => exact intOperand_effects fun _ _ hd => .write _ rfl hd
  | stringToInt ra => exact textOperand_effects fun _ _ hd => .write _ rfl hd
  | intRandom ra => exact execIntRandom_effects s ra
  | add | sub | mul | div | xor | and | or => exact binaryOp_effects _ rfl rfl rfl
  | inc | dec => exact unaryOp_effects _ rfl rfl rfl
  | concat ra rb rc => exact execConcat_effects s ra rb rc
  | system ra => exact textOperand_effects fun _ _ _ => .emit _ ⟨ra, .inr (.inr rfl)⟩
  | jmp | jmpz | jmpnz => exact branch_effects _ _ rfl rfl
  | cmpReg ra rb => exact execCmpReg_effects s ra rb
  | cmpImm ra imm => exact testReg_effects (fun v => equalFlag v (.int (immWord imm))) rfl rfl
  | cmpStr ra text => exact testReg_effects (fun v => equalFlag v (.text text)) rfl rfl
  | isString | isInteger => exact testReg_effects _ rfl rfl
  | mov ra rb => exact execMov_effects s ra rb
  | peek ra rb => exact execPeek_effects s ra rb
  | poke ra rb => exact execPoke_effects s ra rb
  | memcpy ra rb rc => exact execMemcpy_effects s ra rb rc
  | push ra => exact execPush_effects s ra
  | pop ra => exact execPop_effects s ra
  | call target => exact execCall_effects s target
  | ret => exact execRet_effects s

/-- Everything a step that answers a next state can have done: an instruction's effect, or the action of a rejection. -/
theorem step_next_cases {s t : State} (h : step s = .next t) :
    s.status = .running ∧ ((∃ i, s.wrapPc.fetch = .ok i ∧ Effect i s.wrapPc t) ∨
      ∃ r, s.wrapPc.fetch = .error r ∧ t = rejected s.wrapPc r) := by
  rcases step_cases s with ⟨hs, i, hf, e⟩ | ⟨hs, r, hf, e⟩ | ⟨-, e⟩ | ⟨-, e⟩
  · obtain ⟨u, hu, heff⟩ := exec_effect i s.wrapPc
    rw [e, hu] at h
    cases h
    exact ⟨hs, .inl ⟨i, hf, heff⟩⟩
  · rw [e] at h
    cases h
    exact ⟨hs, .inr ⟨r, hf, rfl⟩⟩
  · rw [e] at h; cases h
  · rw [e] at h; cases h

/-- A step is taken exactly in Running (R33, R35). -/
theorem exists_step_iff (s : State) : (∃ t, step s = .next t) ↔ s.status = .running := by
  refine ⟨fun ⟨t, h⟩ => (step_next_cases h).1, fun hs => ?_⟩
  rcases step_cases s with ⟨-, i, -, e⟩ | ⟨-, r, -, e⟩ | ⟨hs', -⟩ | ⟨hs', -⟩
  · obtain ⟨t, ht, -⟩ := exec_effect i s.wrapPc
    exact ⟨t, e.trans ht⟩
  · exact ⟨_, e⟩
  · simp [hs] at hs'
  · simp [hs] at hs'

/-- Everything the action of a rejection can do: the fault entry, that of the unknown opcode above the limit with the count
kept, or the skip of an unknown opcode up to the limit. -/
theorem rejected_cases (s : State) (r : Reject) :
    (∃ c, rejected s r = s.raise c) ∨
    (∃ l op, Config.unknownLimit = some l ∧ l < s.unk + 1 ∧
      rejected s r = ({ s with unk := s.unk + 1 } : State).raise ⟨.unrecognizedOpcode, op⟩) ∨
    ((∀ l, Config.unknownLimit = some l → s.unk + 1 ≤ l) ∧ rejected s r = { s with unk := s.unk + 1, pc := s.pc + 1 }) := by
  cases r with
  | truncated k => exact .inl ⟨_, rfl⟩
  | unknownOpcode op =>
    rcases unknownOpcode_cases Config.unknownLimit op s with ⟨l, hl, hlt, e⟩ | ⟨hle, e⟩
    · exact .inr (.inl ⟨l, op.toNat, hl, hlt, e⟩)
    · exact .inr (.inr ⟨hle, e⟩)

/-! ## The output trace -/

theorem State.wrapPc_trace (s : State) : s.wrapPc.trace = s.trace := by
  rcases s.wrapPc_cases with ⟨-, e⟩ | ⟨-, e⟩ <;> rw [e]

theorem Effect.trace {i : Instr} {s t : State} (h : Effect i s t) :
    t.trace = s.trace ∨ (Emits i ∧ ∃ e, t.trace = s.trace ++ [e]) := by
  cases h with
  | emit e hi => exact .inr ⟨hi, e, rfl⟩
  | _ => exact .inl rfl

theorem rejected_trace (s : State) (r : Reject) : (rejected s r).trace = s.trace := by
  rcases rejected_cases s r with ⟨c, e⟩ | ⟨l, op, -, -, e⟩ | ⟨-, e⟩ <;> rw [e] <;> rfl

/-- A step leaves the trace or, at an emitter, appends one event. -/
theorem step_trace {s t : State} (h : step s = .next t) :
    t.trace = s.trace ∨ ((∃ i, s.wrapPc.fetch = .ok i ∧ Emits i) ∧ ∃ e, t.trace = s.trace ++ [e]) := by
  rw [← s.wrapPc_trace]
  obtain ⟨-, ⟨i, hf, heff⟩ | ⟨r, -, rfl⟩⟩ := step_next_cases h
  · exact heff.trace.imp_right fun ⟨hi, he⟩ => ⟨⟨i, hf, hi⟩, he⟩
  · exact .inl (rejected_trace _ r)

/-- Settles O49. -/
theorem theTraceGrowsByOneEventPerEmitter : Obligations.TheTraceGrowsByOneEventPerEmitter := by
  intro s t h
  rcases step_trace h with htrace | ⟨⟨i, hf, ra, hi⟩, he⟩
  · exact ⟨.inl htrace, fun hne => absurd htrace hne⟩
  · refine ⟨.inr he, fun _ => ⟨ra, ?_⟩⟩
    rw [hf]
    exact hi.imp (congrArg _) (Or.imp (congrArg _) (congrArg _))

/-! ## The invariant along a run -/

theorem Inv.fault_eq_none {s : State} (h : Inv s) (hs : s.status = .running) : s.fault = none := by
  have := h.fault_iff
  simpa [hs] using this

/-- Where no fault is on record the counter has not passed the limit. -/
theorem Inv.unk_le {s : State} (h : Inv s) (hs : s.status = .running) (l : Nat) (hl : Config.unknownLimit = some l) :
    s.unk ≤ l := by
  rcases h.unk_bound l hl with hle | ⟨-, f, hf, -⟩
  · exact hle
  · simp [h.fault_eq_none hs] at hf

/-- A state without a fault needs no more than its storage and its counter in bounds. -/
theorem inv_of_unfaulted {t : State} (hstatus : t.status ≠ .faulted) (hfault : t.fault = none)
    (hmem : Memory.wf t.mem = true) (hcells : t.stack.length = Config.stackDepth) (hsp : t.sp ≤ Config.stackDepth)
    (hunk : ∀ l, Config.unknownLimit = some l → t.unk ≤ l) : Inv t where
  mem_wf := hmem
  fault_iff := by simp [hstatus, hfault]
  fault_at := by simp [hfault]
  cells := hcells
  sp_bound := hsp
  unk_bound l hl := .inl (hunk l hl)

/-- A running state whose storage and counter are as the invariant says; a step begins in one. -/
structure Ready (s : State) : Prop where
  inv : Inv s
  running : s.status = .running
  pc_lt : s.pc.toNat < Config.memSize

theorem Inv.wrapPc {s : State} (h : Inv s) (hs : s.status = .running) : Ready s.wrapPc := by
  have hnone := h.fault_eq_none hs
  refine ⟨?_, ?_, s.wrapPc_lt⟩ <;> rcases s.wrapPc_cases with ⟨-, e⟩ | ⟨-, e⟩ <;> rw [e]
  · exact h
  · exact inv_of_unfaulted (by simp [hs]) hnone h.mem_wf h.cells h.sp_bound (h.unk_le hs)
  · exact hs
  · exact hs

/-- The fault entry from where a step begins. -/
theorem Ready.raise {s : State} (h : Ready s) (r : Raise) : Inv (s.raise r) where
  mem_wf := h.inv.mem_wf
  fault_iff := by simp
  fault_at f hf := by cases hf; exact ⟨rfl, h.pc_lt⟩
  cells := h.inv.cells
  sp_bound := h.inv.sp_bound
  unk_bound l hl := .inl (h.inv.unk_le h.running l hl)

/-- A completion that keeps the fault record and the counter keeps the invariant if it keeps the storage in bounds. -/
theorem Ready.complete {s t : State} (h : Ready s) (hstatus : t.status ≠ .faulted) (hfault : t.fault = s.fault)
    (hunk : t.unk = s.unk) (hmem : Memory.wf t.mem = true) (hcells : t.stack.length = s.stack.length)
    (hsp : t.sp ≤ Config.stackDepth) : Inv t :=
  inv_of_unfaulted hstatus (hfault.trans (h.inv.fault_eq_none h.running)) hmem (hcells.trans h.inv.cells) hsp
    (hunk ▸ h.inv.unk_le h.running)

theorem Effect.inv {i : Instr} {s t : State} (he : Effect i s t) (h : Ready s) : Inv t := by
  have hs : s.status ≠ .faulted := by simp [h.running]
  have hsp := h.inv.sp_bound
  cases he with
  | raise r => exact h.raise r
  | halt => exact h.complete (by simp) rfl rfl h.inv.mem_wf rfl hsp
  | poke a v ha => exact h.complete hs rfl rfl (Memory.wf_set _ _ _ h.inv.mem_wf ha) rfl hsp
  | memcpy d a n hd =>
    refine h.complete hs rfl rfl ?_ rfl hsp
    rcases hd with rfl | hd
    · exact h.inv.mem_wf
    · exact Memory.wf_copyUp _ _ _ _ h.inv.mem_wf hd
  | push w hlt => exact h.complete hs rfl rfl h.inv.mem_wf (by simp) (Nat.succ_le_of_lt hlt)
  | call w a hlt => exact h.complete hs rfl rfl h.inv.mem_wf (by simp) (Nat.succ_le_of_lt hlt)
  | pop v hd hpos => exact h.complete hs rfl rfl h.inv.mem_wf rfl ((Nat.sub_le _ _).trans hsp)
  | ret a hpos => exact h.complete hs rfl rfl h.inv.mem_wf rfl ((Nat.sub_le _ _).trans hsp)
  | _ => exact h.complete hs rfl rfl h.inv.mem_wf rfl hsp

theorem Ready.rejected {s : State} (h : Ready s) (r : Reject) : Inv (rejected s r) := by
  rcases rejected_cases s r with ⟨c, e⟩ | ⟨l, op, hl, hlt, e⟩ | ⟨hle, e⟩ <;> rw [e]
  · exact h.raise c
  · have hunk : s.unk = l := by have := h.inv.unk_le h.running l hl; omega
    exact { h.raise ⟨.unrecognizedOpcode, op⟩ with
      unk_bound := fun l' hl' => by
        obtain rfl : l = l' := Option.some.inj (hl.symm.trans hl')
        exact .inr ⟨by simp [hunk], _, rfl, rfl⟩ }
  · exact inv_of_unfaulted (by simp [h.running]) (h.inv.fault_eq_none h.running) h.inv.mem_wf h.inv.cells
      h.inv.sp_bound hle

/-- Every step keeps the invariant. -/
theorem step_inv {s t : State} (h : Inv s) (hstep : step s = .next t) : Inv t := by
  obtain ⟨hs, ⟨i, -, heff⟩ | ⟨r, -, rfl⟩⟩ := step_next_cases hstep
  · exact heff.inv (h.wrapPc hs)
  · exact (h.wrapPc hs).rejected r

theorem runs_inv {s t : State} (h : Inv s) (hr : Runs s t) : Inv t := by
  induction hr with
  | start => exact h
  | more _ hstep ih => exact step_inv ih hstep

/-- An accepted load gives a state in which the invariant holds. -/
theorem boot_inv {e : Config.Embedding} {image : List Byte} {s : State} (h : boot e image = .next s) : Inv s := by
  rcases bootUnder_cases Params.default e image with ⟨-, hlen, -, hb⟩ | ⟨r, hb⟩
  · obtain rfl : State.loadUnder Params.default image = s := Host.Outcome.next.inj (hb.symm.trans h)
    exact inv_of_unfaulted (by simp [State.loadUnder, State.reset]) rfl (State.loadUnder_mem_wf _ _ hlen)
      List.length_replicate (Nat.zero_le _) (fun _ _ => Nat.zero_le _)
  · cases hb.symm.trans h

/-! ## How runs end -/

/-- Exactly the ended states have no next step (R35). -/
theorem no_step_iff_ended (s : State) : (∀ t, step s ≠ .next t) ↔ Ended s :=
  not_exists.symm.trans (exists_step_iff s).not

/-- Under the invariant an ended state is a successful end, or stands Faulted with a record of the opcode at its pc. -/
theorem Inv.end_cases {s : State} (h : Inv s) (he : Ended s) :
    SuccessfulEnd s ∨ (s.status = .faulted ∧ ∃ f, s.fault = some f ∧ f.atPc = s.pc) := by
  have hiff := h.fault_iff
  cases hs : s.status with
  | running => exact absurd hs he
  | halted => exact .inl ⟨hs, by simpa [hs] using hiff⟩
  | faulted =>
    obtain ⟨f, hf⟩ := Option.isSome_iff_exists.mp (hiff.mp hs)
    exact .inr ⟨rfl, f, hf, (h.fault_at f hf).1⟩

/-- Settles O55, by the invariant along the run. -/
theorem runsEndHaltedOrFaulted : Obligations.RunsEndHaltedOrFaulted := by
  intro e image s t hboot hruns
  exact ⟨no_step_iff_ended t, (runs_inv (boot_inv hboot) hruns).end_cases⟩

end Sys2Proof.Machine
end

/-! PROOF. The decoder's answer read backwards: whatever it accepts is an encodable instruction whose own bytes stand at
the head of the stream. -/

section
namespace Sys2Proof

open Machine

/-- What it means that an instruction was read from a stream: it has an encoding, its bytes are among the `avail` bytes
that are there, and they are the first ones. -/
structure ReadFrom (m : OpMap) (byte : Nat → Byte) (avail : Nat) (i : Instr) : Prop where
  wellFormed : i.WellFormed = true
  length_le : i.length ≤ avail
  bytes : encodeUnder m i = literalAt byte 0 i.length

/-- A stream that agrees with the one read, as far as it goes, begins with the instruction's bytes too. -/
theorem ReadFrom.readsPrefix {m : OpMap} {byte byte' : Nat → Byte} {avail avail' : Nat} {i : Instr}
    (h : ReadFrom m byte avail i) (heq : ∀ k, k < avail' → byte' k = byte k) :
    ReadsPrefix byte' avail' (encodeUnder m i) := by
  intro k b hb hk
  rw [h.bytes] at hb
  obtain ⟨hlen, rfl⟩ := List.getElem?_eq_some_iff.mp hb
  rw [heq k hk, literalAt_getElem, Nat.zero_add]

section Formats

variable {m : OpMap} {byte : Nat → Byte} {avail : Nat} {i j : Instr}

/-- A format whose operands are the bytes behind the opcode reads its instruction from the stream. -/
theorem readFrom_of_needBytes {n : Nat} (h : needBytes avail (n + 1) j = .ok i) (hop : m j.op = byte 0)
    (hw : j.WellFormed = true) (hbytes : j.operandBytes = literalAt byte 1 n) : ReadFrom m byte avail i := by
  obtain ⟨hle, rfl⟩ := (needBytes_eq_ok _ _ _ _).mp h
  have henc : encodeUnder m j = literalAt byte 0 (n + 1) := by rw [encodeUnder, hop, hbytes]; rfl
  have hlen : j.length = n + 1 := by rw [← encodeUnder_length m j, henc, literalAt_length]
  exact ⟨hw, hlen ▸ hle, hlen ▸ henc⟩

theorem halfBytes_half_eq_literalAt (byte : Nat → Byte) (k : Nat) :
    halfBytes (half (byte k) (byte (k + 1))) = literalAt byte k 2 := by
  simp [halfBytes, literalAt]

/-- The length field and the literal it announces are the bytes they were read from (R76). -/
theorem literalBytes_eq_literalAt (byte : Nat → Byte) (k : Nat) :
    literalBytes (literalAt byte (k + 2) (half (byte k) (byte (k + 1))).toNat) =
      literalAt byte k ((half (byte k) (byte (k + 1))).toNat + 2) := by
  simp [literalBytes, halfBytes, literalAt]

/-- Format RT reads its instruction from the stream, and the 16-bit length field makes the literal encodable (R74). -/
theorem readFrom_of_formRT {mk : Byte → List Byte → Instr} (h : formRT byte avail mk = .ok i)
    (hop : ∀ a t, m (mk a t).op = byte 0) (hw : ∀ a t, (mk a t).WellFormed = decide (t.length ≤ 65535))
    (hbytes : ∀ a t, (mk a t).operandBytes = a :: literalBytes t) : ReadFrom m byte avail i := by
  unfold formRT at h
  split at h
  · cases h
  · simp only [Nat.add_comm 4] at h
    refine readFrom_of_needBytes h (hop _ _) ?_ ?_
    · rw [hw, literalAt_length]
      exact decide_eq_true (Nat.le_of_lt_succ (half (byte 2) (byte 3)).isLt)
    · rw [hbytes, literalBytes_eq_literalAt byte 2]
      rfl

end Formats

theorem decodeOp_readFrom {m : OpMap} {op : Op} {byte : Nat → Byte} {avail : Nat} {i : Instr}
    (h : decodeOp op byte avail = .ok i) (hop : m op = byte 0) : ReadFrom m byte avail i := by
  cases op with
  | exit | nop | ret | intPrint | intToString | intRandom | inc | dec | stringPrint | system | stringToInt | isString
  | isInteger | push | pop | cmpReg | mov | peek | poke | xor | add | sub | mul | div | and | or | concat | memcpy =>
    exact readFrom_of_needBytes h hop rfl rfl
  | jmp | jmpz | jmpnz | call => exact readFrom_of_needBytes h hop rfl (halfBytes_half_eq_literalAt byte 1)
  | intStore | cmpImm =>
    exact readFrom_of_needBytes h hop rfl (congrArg (byte 1 :: ·) (halfBytes_half_eq_literalAt byte 2))
  | stringStore | cmpStr =>
    exact readFrom_of_formRT h (fun _ _ => hop) (fun _ _ => rfl) (fun _ _ => rfl)

/-- Whatever the decoder accepts, under any opcode map, was read from the stream. -/
theorem decodeUnder_readFrom {m : OpMap} {byte : Nat → Byte} {avail : Nat} {i : Instr}
    (h : decodeUnder m byte avail = .ok i) : ReadFrom m byte avail i := by
  unfold decodeUnder at h
  split at h
  · cases h
  · split at h
    · next op hop => exact decodeOp_readFrom h (OpMap.lookup_some hop)
    · cases h

end Sys2Proof
end

/-! PROOF. The load port, and the step cycle from the bytes at pc to the meaning it runs. -/

section
namespace Sys2Proof.Machine

/-- The load port accepts a legal image under the embedder's default configuration (R231). -/
theorem bootUnder_of_legal (p : Params) {image : List Byte} (h : 1 ≤ image.length)
    (h' : image.length ≤ Config.memSize) : bootUnder p Config.Embedding.default image = .next (State.loadUnder p image) := by
  rw [bootUnder, if_neg (by omega), if_neg (by omega)]
  rfl

/-- Settles O1. Every row but memory's is a field of the reset state; memory is the image over the fill. -/
theorem bootLoadsImageAndResets : Obligations.BootLoadsImageAndResets := by
  refine ⟨fun _ _ => rfl, rfl, rfl, fun p image h h' => ⟨_, bootUnder_of_legal p h h', State.reset_reg, rfl, rfl,
    fun a ha => ?_, fun a ha ha' => ?_, rfl, List.length_replicate, rfl, rfl, rfl, rfl⟩⟩
  · rw [State.loadUnder_get p image a (ha.trans_le h'), if_pos ha]
    exact (List.getElem_eq_getD 0).symm
  · rw [State.loadUnder_get p image a ha', if_neg (by omega)]

/-! ## The step cycle -/

/-- The wrap writes no field but pc. -/
theorem State.wrapPc_eq (s : State) : ∃ a, s.wrapPc = { s with pc := a } := by
  rcases s.wrapPc_cases with ⟨-, e⟩ | ⟨-, e⟩
  · exact ⟨s.pc, e⟩
  · exact ⟨0, e⟩

theorem State.wrapPc_pc (s : State) : s.wrapPc.pc = if Config.memSize ≤ s.pc.toNat then 0 else s.pc :=
  apply_ite State.pc _ _ _

@[simp] theorem State.wrapPc_z (s : State) : s.wrapPc.z = s.z := by
  obtain ⟨a, e⟩ := s.wrapPc_eq
  rw [e]

@[simp] theorem State.wrapPc_mem (s : State) : s.wrapPc.mem = s.mem := by
  obtain ⟨a, e⟩ := s.wrapPc_eq
  rw [e]

@[simp] theorem State.wrapPc_stack (s : State) : s.wrapPc.stack = s.stack := by
  obtain ⟨a, e⟩ := s.wrapPc_eq
  rw [e]

@[simp] theorem State.wrapPc_sp (s : State) : s.wrapPc.sp = s.sp := by
  obtain ⟨a, e⟩ := s.wrapPc_eq
  rw [e]

@[simp] theorem State.wrapPc_status (s : State) : s.wrapPc.status = s.status := by
  obtain ⟨a, e⟩ := s.wrapPc_eq
  rw [e]

/-- The wrap is the first thing a step does, so doing it beforehand makes no difference. -/
theorem step_wrapPc (s : State) : step s.wrapPc = step s := by
  simp [step, cycle, cycleUnder, State.wrapPc_of_lt s.wrapPc_lt]

/-- A Running machine runs the instruction it fetches at the wrapped pc. -/
theorem step_of_fetch_ok {s : State} {i : Instr} (hs : s.status = .running) (hf : s.wrapPc.fetch = .ok i) :
    step s = exec i s.wrapPc :=
  calc
    step s = step s.wrapPc := (step_wrapPc s).symm
    _ = execUnder Params.default i s.wrapPc := cycleUnder_of_fetch_ok (s.wrapPc_status.trans hs) s.wrapPc_lt hf
    _ = exec i s.wrapPc := execUnder_default i _

/-- Settles O10. -/
theorem stepRunsTheDecodedInstruction : Obligations.StepRunsTheDecodedInstruction := by
  intro s i hs hpc hdecode
  have hw : s.wrapPc = s := State.wrapPc_of_lt hpc
  have hf : s.wrapPc.fetch = .ok i := hw.symm ▸ hdecode
  rw [step_of_fetch_ok hs hf, hw]

/-- Settles O11. -/
theorem stepRunsTheEncodedInstruction : Obligations.StepRunsTheEncodedInstruction := by
  intro s i hs hw hfit hbytes
  exact (cycleUnder_runs_encoded (p := Params.default) OpMap.default_legal hs hw hfit hbytes).trans (execUnder_default i s)

/-- Settles O12. The byte that lies beyond the bound while all before it lie below is the one at the bound itself. -/
theorem opcodeFetchWrapsAndOperandFetchFaults : Obligations.OpcodeFetchWrapsAndOperandFetchFaults := by
  refine ⟨fun s hpc => ?_, fun s i k hs hw hk hlt hge hbelow hbytes => ?_⟩
  · have hwrap : s.wrapPc = { s with pc := 0 } := if_pos hpc
    rw [← hwrap, step_wrapPc]
  · have hend : s.pc.toNat + k = 65536 := by
      have := hbelow (k - 1) (by omega)
      omega
    have hlen : (encode i).length = i.length := encodeUnder_length _ i
    exact cycleUnder_truncated OpMap.default_legal hs hw hk (hlen ▸ hlt) hend hbytes

/-- Settles O15. -/
theorem runningMachinesAlwaysStep : Obligations.RunningMachinesAlwaysStep := by
  intro s hs
  exact (exists_step_iff s).mpr hs

end Sys2Proof.Machine
end

/-! PROOF. What every step keeps: the invariant, and one frame for each of Z, memory, the stack, its pointer, the status
and pc. Each frame is read off the effects of the instructions and the action of a rejection. -/

section
namespace Sys2Proof.Machine

/-- Settles O54, by the cases of a step. -/
theorem everyStepKeepsTheInvariant : Obligations.EveryStepKeepsTheInvariant := by
  intro s t h hstep
  exact step_inv h hstep

/-- The action of a rejection writes no field but pc, the counter, the status and the fault record, and halts nothing. -/
theorem rejected_eq (s : State) (r : Reject) :
    ∃ a n st f, rejected s r = { s with pc := a, unk := n, status := st, fault := f } ∧
      (st = s.status ∨ st = .faulted) := by
  rcases rejected_cases s r with ⟨c, e⟩ | ⟨l, op, -, -, e⟩ | ⟨-, e⟩
  · exact ⟨_, _, _, _, e, .inr rfl⟩
  · exact ⟨_, _, _, _, e, .inr rfl⟩
  · exact ⟨_, _, _, _, e, .inl rfl⟩

/-- A step that answers a next state has an instruction's effect, or fetched none and wrote no field but the four of a
rejection. -/
theorem step_effect_cases {s t : State} (h : step s = .next t) :
    (∃ i, s.wrapPc.fetch = .ok i ∧ Effect i s.wrapPc t) ∨
    (∃ a n st f, t = { s with pc := a, unk := n, status := st, fault := f } ∧ (st = s.status ∨ st = .faulted)) := by
  obtain ⟨-, heff | ⟨r, -, rfl⟩⟩ := step_next_cases h
  · exact .inl heff
  · obtain ⟨a, n, st, f, e, hst⟩ := rejected_eq s.wrapPc r
    obtain ⟨b, hb⟩ := s.wrapPc_eq
    exact .inr ⟨a, n, st, f, by rw [e, hb], s.wrapPc_status ▸ hst⟩

/-! ## The status -/

theorem Effect.status {i : Instr} {s t : State} (h : Effect i s t) :
    t.status = s.status ∨ t.status = .faulted ∨ i = .exit := by
  cases h with
  | raise r => exact .inr (.inl rfl)
  | halt => exact .inr (.inr rfl)
  | _ => exact .inl rfl

/-- Settles O14. -/
theorem stepsOnlyInRunningAndHaltsOnlyByExit : Obligations.StepsOnlyInRunningAndHaltsOnlyByExit := by
  refine ⟨fun s hs t h => hs ((exists_step_iff s).mp ⟨t, h⟩), fun s t h hhalt => ?_, rfl⟩
  have hs : s.status = .running := (exists_step_iff s).mp ⟨t, h⟩
  rcases step_effect_cases h with ⟨i, hf, heff⟩ | ⟨a, n, st, f, rfl, hst⟩
  · rcases heff.status with hsame | hfault | rfl
    · simp [hhalt, hs] at hsame
    · simp [hhalt] at hfault
    · exact hf
  · obtain rfl : st = .halted := hhalt
    simp [hs] at hst

/-! ## Z -/

/-- An instruction that changes Z is one of the 14 writers, and completes. -/
theorem Effect.z {i : Instr} {s t : State} (h : Effect i s t) :
    t.z = s.z ∨ (i.writesZ = true ∧ t.status = s.status) := by
  cases h with
  | compute v z hb hd hz => exact .inr ⟨hz, rfl⟩
  | test z hz => exact .inr ⟨hz, rfl⟩
  | _ => exact .inl rfl

/-- Settles O45. A writer that changes Z completes, so its step does not end Faulted. -/
theorem onlyTheWritersChangeZ : Obligations.OnlyTheWritersChangeZ := by
  intro s t h hpremise
  rcases step_effect_cases h with ⟨i, hf, heff⟩ | ⟨a, n, st, f, rfl, -⟩
  · rcases heff.z with hz | ⟨hwrites, hstatus⟩
    · exact hz.trans s.wrapPc_z
    · have hs : s.status = .running := (exists_step_iff s).mp ⟨t, h⟩
      rcases hpremise with hfault | hnone
      · simp [hs, hfault] at hstatus
      · simp [hnone i hf] at hwrites
  · rfl

/-! ## Memory -/

theorem Effect.mem {i : Instr} {s t : State} (h : Effect i s t) :
    t.mem = s.mem ∨ (∃ ra rb, i = .poke ra rb) ∨ ∃ ra rb rc, i = .memcpy ra rb rc := by
  cases h with
  | poke a v ha => exact .inr (.inl ⟨_, _, rfl⟩)
  | memcpy d a n hd => exact .inr (.inr ⟨_, _, _, rfl⟩)
  | _ => exact .inl rfl

/-- Settles O47. -/
theorem onlyPokeAndMemcpyWriteMemory : Obligations.OnlyPokeAndMemcpyWriteMemory := by
  intro s t h hpremise a
  rcases step_effect_cases h with ⟨i, hf, heff⟩ | ⟨b, n, st, f, rfl, -⟩
  · obtain ⟨hpoke, hmemcpy⟩ := hpremise i hf
    rcases heff.mem with hmem | ⟨ra, rb, hi⟩ | ⟨ra, rb, rc, hi⟩
    · rw [hmem, s.wrapPc_mem]
    · exact absurd hi (hpoke ra rb)
    · exact absurd hi (hmemcpy ra rb rc)
  · rfl

/-! ## The operand stack -/

theorem Effect.stack {i : Instr} {s t : State} (h : Effect i s t) :
    t.stack = s.stack ∨ (∃ ra, i = .push ra) ∨ ∃ a, i = .call a := by
  cases h with
  | push w hsp => exact .inr (.inl ⟨_, rfl⟩)
  | call w a hsp => exact .inr (.inr ⟨_, rfl⟩)
  | _ => exact .inl rfl

theorem Effect.stack_length {i : Instr} {s t : State} (h : Effect i s t) : t.stack.length = s.stack.length := by
  cases h with
  | push w hsp => exact List.length_set
  | call w a hsp => exact List.length_set
  | _ => rfl

theorem Effect.sp {i : Instr} {s t : State} (h : Effect i s t) :
    t.sp = s.sp ∨ (∃ ra, i = .push ra) ∨ (∃ a, i = .call a) ∨ (∃ ra, i = .pop ra) ∨ i = .ret := by
  cases h with
  | push w hsp => exact .inr (.inl ⟨_, rfl⟩)
  | call w a hsp => exact .inr (.inr (.inl ⟨_, rfl⟩))
  | pop v hd hsp => exact .inr (.inr (.inr (.inl ⟨_, rfl⟩)))
  | ret a hsp => exact .inr (.inr (.inr (.inr rfl)))
  | _ => exact .inl rfl

/-- Settles O48. -/
theorem onlyStackInstructionsTouchTheStack : Obligations.OnlyStackInstructionsTouchTheStack := by
  intro s t h
  rcases step_effect_cases h with ⟨i, hf, heff⟩ | ⟨b, n, st, f, rfl, -⟩
  · refine ⟨fun hpremise => ?_, fun hpremise => ?_, by simpa using heff.stack_length⟩
    · obtain ⟨hpush, hcall⟩ := hpremise i hf
      rcases heff.stack with hstack | ⟨ra, hi⟩ | ⟨a, hi⟩
      · exact hstack.trans s.wrapPc_stack
      · exact absurd hi (hpush ra)
      · exact absurd hi (hcall a)
    · obtain ⟨hpush, hcall, hpop, hret⟩ := hpremise i hf
      rcases heff.sp with hsp | ⟨ra, hi⟩ | ⟨a, hi⟩ | ⟨ra, hi⟩ | hi
      · exact hsp.trans s.wrapPc_sp
      · exact absurd hi (hpush ra)
      · exact absurd hi (hcall a)
      · exact absurd hi (hpop ra)
      · exact absurd hi hret
  · exact ⟨fun _ => rfl, fun _ => rfl, rfl⟩

/-! ## pc -/

/-- An instruction that is no control transfer faults or advances pc by its length (R32, R33). -/
theorem Effect.pc {i : Instr} {s t : State} (h : Effect i s t) :
    t.status = .faulted ∨ i.assignsPc = true ∨ t.pc = s.pc + BitVec.ofNat 32 i.length := by
  cases h with
  | raise r => exact .inl rfl
  | jump a hi => exact .inr (.inl hi)
  | call w a hsp => exact .inr (.inl rfl)
  | ret a hsp => exact .inr (.inl rfl)
  | _ => exact .inr (.inr rfl)

/-- A fetched instruction lies inside the address space (R57). -/
theorem State.fetch_length_le {s : State} {i : Instr} (h : s.fetch = .ok i) :
    i.length ≤ Config.memSize - s.pc.toNat :=
  (decodeUnder_readFrom h).length_le

/-- Settles O46. The fetched instruction ends inside the address space, so the sum of the advance is exact. -/
theorem sequentialAdvanceStaysInBounds : Obligations.SequentialAdvanceStaysInBounds := by
  intro s t i h hf hseq hok
  have hfit : i.length ≤ 65536 - s.wrapPc.pc.toNat := State.fetch_length_le hf
  have hlt : s.wrapPc.pc.toNat < 65536 := s.wrapPc_lt
  obtain ⟨-, ⟨j, hj, heff⟩ | ⟨r, hr, -⟩⟩ := step_next_cases h
  · obtain rfl : j = i := Except.ok.inj (hj.symm.trans hf)
    rcases heff.pc with hfault | hassigns | hpc
    · exact absurd hfault hok
    · simp [hseq] at hassigns
    · have hsum : t.pc.toNat = s.wrapPc.pc.toNat + j.length := by
        rw [hpc, BitVec.toNat_add, BitVec.toNat_ofNat]
        omega
      exact ⟨hsum, by omega⟩
  · cases hr.symm.trans hf

end Sys2Proof.Machine
end

/-! PROOF. The instruction the host places is the one fetched next: the placed bytes are those of the table's word, and the
decoder looks at no other. -/

section
namespace Sys2Proof.Machine

/-- The bits of a table's word end before the bytes beyond its last one. -/
theorem wordByte_of_le {nbits w k : Nat} (h : (nbits + 7) / 8 ≤ k) : wordByte nbits w k = 0 :=
  if_neg (by omega)

/-- From the address of a placed word up to the end of the address space memory reads the word's bytes. -/
theorem Memory.get_place (m : Memory) {a nbits w k : Nat} (h : a + k < Config.memSize) :
    Memory.get (Memory.place m a nbits w) (a + k) = wordByte nbits w k := by
  simp only [Memory.place, tableBytes, Memory.get_setBytes, literalAt_length, Nat.add_sub_cancel_left]
  by_cases hk : k < min ((nbits + 7) / 8) (Config.memSize - a)
  · rw [if_pos (by omega), ← List.getElem_eq_getD (h := by simpa using hk), literalAt_getElem, Nat.zero_add]
  · rw [if_neg (by omega), Memory.get_filter_lt, if_neg (by omega), wordByte_of_le (by omega)]
    rfl

theorem State.wrapPc_withFetchWord_pc (s : State) (nbits w : Nat) :
    (s.withFetchWord nbits w).wrapPc.pc = s.wrapPc.pc :=
  (State.wrapPc_pc _).trans (State.wrapPc_pc s).symm

/-- The next fetch after the placing finds the word's bytes. -/
theorem State.fetchByte_withFetchWord {s : State} {nbits w k : Nat} (h : k < Config.memSize - s.wrapPc.pc.toNat) :
    (s.withFetchWord nbits w).wrapPc.fetchByte k = wordByte nbits w k := by
  rw [State.fetchByte, State.wrapPc_mem, State.wrapPc_withFetchWord_pc, State.withFetchWord_mem,
    Memory.get_place _ (by omega)]

theorem decodeTableWord_eq_some {nbits w : Nat} {i : Instr} (h : decodeTableWord nbits w = some i) :
    decodeWith (wordByte nbits w) 65539 = .ok i := by
  unfold decodeTableWord at h
  split at h
  · next j hj => rw [hj, Option.some.inj h]
  · cases h

/-- Settles O56. -/
theorem placedWordIsTheNextInstruction : Obligations.PlacedWordIsTheNextInstruction := by
  intro s nbits w i hword hfit
  have hread := decodeUnder_readFrom (decodeTableWord_eq_some hword)
  refine step_of_fetch_ok rfl ?_
  have hprefix := hread.readsPrefix fun k hk => State.fetchByte_withFetchWord (s := s) (nbits := nbits) (w := w) hk
  rw [← State.wrapPc_withFetchWord_pc s nbits w] at hprefix hfit
  refine (State.fetchUnder_of_readsPrefix OpMap.default_legal hread.wellFormed (State.wrapPc_lt _) hprefix).trans ?_
  exact (needBytes_eq_ok _ _ _ _).mpr ⟨Nat.le_sub_of_add_le' hfit, rfl⟩

end Sys2Proof.Machine
end

/-! PROOF. PUSH and POP as a pair. -/

section
namespace Sys2Proof.Machine

theorem exec_push (ra : Byte) (s : State) : exec (.push ra) s = pushUnder Config.stackDepth ra s := rfl

theorem exec_pop (ra : Byte) (s : State) : exec (.pop ra) s = execPop ra s := rfl

/-- A PUSH whose checks pass (R170). -/
theorem pushUnder_ok {depth : Nat} {ra : Byte} {i : Fin Config.nreg} {v : Word} {s : State} (hi : ra.toNat = i.val)
    (hv : s.reg i = .int v) (hsp : s.sp < depth) :
    pushUnder depth ra s = .next (({ s with stack := s.stack.set s.sp v, sp := s.sp + 1 } : State).advance 2) := by
  simp [pushUnder, regCheck_ok hi, State.intOf_ok hv, State.push_eq_ok.mpr ⟨hsp, rfl⟩]

/-- A POP whose checks pass (R171). -/
theorem execPop_ok {ra : Byte} {d : Fin Config.nreg} {s : State} (hd : ra.toNat = d.val) (hsp : 0 < s.sp) :
    execPop ra s =
      .next ((({ s with sp := s.sp - 1 } : State).setReg d (.int (s.stack.getD (s.sp - 1) 0))).advance 2) := by
  simp [execPop, regCheck_ok hd, State.pop_eq_ok.mpr ⟨hsp, rfl⟩]

/-- Settles O58. The cell PUSH wrote is there, because the pointer was below the number of cells, and POP reads it. -/
theorem pushThenPopReturnsTheValue : Obligations.PushThenPopReturnsTheValue := by
  intro s ra rb i d v hi hd hv hsp hcells
  have hcell : (s.stack.set s.sp v).getD s.sp 0 = v := by
    simp [List.getD_eq_getElem?_getD, hcells, hsp]
  refine ⟨_, _, (exec_push ra s).trans (pushUnder_ok hi hv hsp), (exec_pop rb _).trans (execPop_ok hd (Nat.succ_pos _)),
    rfl, ?_, fun j hj => ?_⟩
  · simpa using hcell
  · simp only [State.advance_reg, State.setReg_reg, if_neg hj.symm]
    rfl

end Sys2Proof.Machine
end

/-! PROOF. The 16-bit operands of the instruction stream, low byte first: each case is an instruction's own bytes read back. -/

section
namespace Sys2Proof

/-- The decoder reads an instruction from its opcode and its operand bytes, whatever follows. -/
theorem decode_opcode_operandBytes {i : Instr} {op : Byte} {bs rest : List Byte} (hw : i.WellFormed = true)
    (hop : i.opcode = op) (hbs : i.operandBytes ++ rest = bs) : decode (op :: bs) = .ok i := by
  subst hop hbs
  exact decodeBytesUnder_encodeUnder OpMap.default_legal i rest hw

@[simp] theorem halfBytes_half (lo hi : Byte) : halfBytes (half lo hi) = [lo, hi] := by
  simp [halfBytes]

/-- A literal cut from a byte list at the length its length field gives (R76). -/
theorem literalBytes_take_append_drop {n : Half} {bs : List Byte} (h : n.toNat ≤ bs.length) :
    literalBytes (bs.take n.toNat) ++ bs.drop n.toNat = halfBytes n ++ bs := by
  rw [literalBytes, List.length_take_of_le h, BitVec.ofNat_toNat, BitVec.setWidth_eq, List.append_assoc,
    List.take_append_drop]

/-- Settles O7. The operand is `half lo hi`, whose bytes are the two given ones; a literal of that length is encodable, since
a 16-bit length is at most 65535. -/
theorem sixteenBitOperandsAreLowByteFirst : Obligations.SixteenBitOperandsAreLowByteFirst := by
  intro ra lo hi rest
  have htarget : halfBytes (half lo hi) ++ rest = lo :: hi :: rest := by simp
  have himm : ra :: halfBytes (half lo hi) ++ rest = ra :: lo :: hi :: rest := congrArg (ra :: ·) htarget
  refine ⟨half lo hi, half_toNat lo hi, decode_opcode_operandBytes rfl rfl himm, decode_opcode_operandBytes rfl rfl himm,
    decode_opcode_operandBytes rfl rfl htarget, decode_opcode_operandBytes rfl rfl htarget,
    decode_opcode_operandBytes rfl rfl htarget, decode_opcode_operandBytes rfl rfl htarget, fun hlen => ?_⟩
  have hliteral := congrArg (ra :: ·) ((literalBytes_take_append_drop hlen).trans htarget)
  have hfits : decide ((rest.take (half lo hi).toNat).length ≤ 65535) = true := by
    rw [List.length_take_of_le hlen]
    exact decide_eq_true (Nat.le_of_lt_succ (half lo hi).isLt)
  exact ⟨decode_opcode_operandBytes hfits rfl hliteral, decode_opcode_operandBytes hfits rfl hliteral⟩

end Sys2Proof
end

/-! PROOF. Self-modifying code (`20_memory.md` R64): a POKE of EXIT over the next instruction. -/

section
namespace Sys2Proof.Machine

theorem exec_poke (ra rb : Byte) (s : State) : exec (.poke ra rb) s = execPoke ra rb s := rfl

/-- A POKE whose checks pass (R161). -/
theorem execPoke_ok {ra rb : Byte} {i j : Fin Config.nreg} {v a : Word} {s : State} (hi : ra.toNat = i.val)
    (hj : rb.toNat = j.val) (hv : s.reg i = .int v) (ha : s.reg j = .int a) (hlt : a.toNat < Config.memSize) :
    execPoke ra rb s = .next ((s.setMem (Memory.set s.mem a.toNat (lowByte v))).advance 3) := by
  simp [execPoke, regCheck_ok hi, regCheck_ok hj, State.intOf_ok hv, State.intOf_ok ha,
    State.memWrite_eq_ok.mpr ⟨hlt, rfl⟩]

/-- A Running machine with the EXIT byte at pc halts, with pc one past it (R100). -/
theorem step_of_exit_at_pc {s : State} (hs : s.status = .running) (hpc : s.pc.toNat < Config.memSize)
    (hbyte : Memory.get s.mem s.pc.toNat = 0) : step s = .next { s with status := .halted, pc := s.pc + 1 } := by
  refine stepRunsTheEncodedInstruction s .exit hs rfl hpc fun j hj => ?_
  obtain rfl : j = 0 := Nat.lt_one_iff.mp hj
  exact congrArg some hbyte.symm

/-- Settles O59. The address just after the POKE is the one written, so the next fetch finds the low byte of `v`, EXIT. -/
theorem pokedExitIsFetchedNext : Obligations.PokedExitIsFetchedNext := by
  intro s ra rb i j v a hs hi hj hv ha hlow hnext hlt
  have hpc : s.pc + BitVec.ofNat 32 3 = a := by bv_omega
  have hexit : lowByte v = 0 := BitVec.eq_of_toNat_eq ((lowByte_toNat v).trans hlow)
  refine ⟨_, (exec_poke ra rb s).trans (execPoke_ok hi hj hv ha hlt), step_of_exit_at_pc hs ?_ ?_⟩
  · simpa [hpc] using hlt
  · simp [hpc, hexit]

end Sys2Proof.Machine
end

/-! PROOF. The two directions of the round trip between decoder and encoder, the bytes the default map leaves free, and the
refusals of the load port. -/

section
namespace Sys2Proof

open Machine

/-! ## The round trip -/

/-- Settles O5. The default map is legal, and under a legal map the decoder reads an instruction from its own bytes. -/
theorem decodeReadsBackEncode : Obligations.DecodeReadsBackEncode := by
  intro i rest hw
  exact decodeBytesUnder_encodeUnder OpMap.default_legal i rest hw

/-- The bytes fetched from the start of a byte list are its first ones. -/
theorem literalAt_getD_eq_take {bs : List Byte} {n : Nat} (h : n ≤ bs.length) :
    literalAt (fun k => bs.getD k 0) 0 n = bs.take n := by
  have hlen : (bs.take n).length = n := List.length_take_of_le h
  have hread := literalAt_eq_take (fun k => bs.getD k 0) 0 (bs.take n) fun j hj => by
    rw [Nat.zero_add, List.getElem_take, List.getElem_eq_getD]
  rwa [hlen] at hread

/-- Settles O6. The instruction was read from the head of the sequence, so what is left is the sequence without it. -/
theorem decodedBytesAreTheEncoding : Obligations.DecodedBytesAreTheEncoding := by
  intro bs i h
  have hread : ReadFrom OpMap.default (fun k => bs.getD k 0) bs.length i := decodeUnder_readFrom h
  have hhead : encode i = bs.take i.length := hread.bytes.trans (literalAt_getD_eq_take hread.length_le)
  exact ⟨hread.wellFormed, bs.drop i.length, by rw [hhead, List.take_append_drop]⟩

/-! ## Unknown opcodes -/

theorem needBytes_eq_error {avail len : Nat} {i : Instr} {r : Reject} (h : needBytes avail len i = .error r) :
    r = .truncated avail := by
  rcases needBytes_cases avail len i with ⟨-, e⟩ | ⟨-, e⟩
  · cases e.symm.trans h
  · exact (Except.error.inj (e.symm.trans h)).symm

theorem formRT_eq_error {byte : Nat → Byte} {avail : Nat} {mk : Byte → List Byte → Instr} {r : Reject}
    (h : formRT byte avail mk = .error r) : r = .truncated avail := by
  unfold formRT at h
  split at h
  · exact (Except.error.inj h).symm
  · exact needBytes_eq_error h

/-- Once the opcode has selected an instruction, only missing bytes can reject it. -/
theorem decodeOp_eq_error {op : Op} {byte : Nat → Byte} {avail : Nat} {r : Reject}
    (h : decodeOp op byte avail = .error r) : r = .truncated avail := by
  cases op with
  | stringStore | cmpStr => exact formRT_eq_error h
  | _ => exact needBytes_eq_error h

/-- A first byte is reported as an unknown opcode exactly when the map gives it to no instruction (R79). -/
theorem decodeBytesUnder_eq_unknownOpcode {m : OpMap} (b : Byte) (rest : List Byte) :
    decodeBytesUnder m (b :: rest) = .error (.unknownOpcode b) ↔ m.lookup b = none := by
  refine ⟨fun h => ?_, fun h => decodeBytesUnder_unmapped b rest ((m.lookup_eq_none b).mp h)⟩
  cases hop : m.lookup b with
  | none => rfl
  | some op =>
    have hselect : decodeBytesUnder m (b :: rest) = decodeOp op (fun k => (b :: rest).getD k 0) (rest.length + 1) := by
      simp [decodeBytesUnder, decodeUnder, hop]
    cases decodeOp_eq_error (hselect.symm.trans h)

/-- The eight ranges of R81. -/
def UnmappedRange (n : Nat) : Prop :=
  (0x05 ≤ n ∧ n ≤ 0x0F) ∨ (0x13 ≤ n ∧ n ≤ 0x1F) ∨ (0x29 ≤ n ∧ n ≤ 0x2F) ∨ (0x35 ≤ n ∧ n ≤ 0x3F) ∨
  (0x45 ≤ n ∧ n ≤ 0x4F) ∨ (0x52 ≤ n ∧ n ≤ 0x5F) ∨ (0x63 ≤ n ∧ n ≤ 0x6F) ∨ (0x74 ≤ n ∧ n ≤ 0xFF)

/-- No opcode of the default map lies in the ranges of R81. -/
theorem default_not_unmappedRange (o : Op) : ¬ UnmappedRange (OpMap.default o).toNat := by
  unfold UnmappedRange
  cases o <;> decide

/-- A byte that is no opcode of the default map lies in the ranges of R81: the map fills all that is between them. -/
theorem unmappedRange_of_unmapped {b : Byte} (h : ∀ o, OpMap.default o ≠ b) : UnmappedRange b.toNat := by
  have hlt := b.isLt
  have hne : ∀ o ∈ Op.all, (OpMap.default o).toNat ≠ b.toNat := fun o _ e => h o (BitVec.eq_of_toNat_eq e)
  simp only [Op.all, List.forall_mem_cons, OpMap.default, BitVec.reduceToNat] at hne
  unfold UnmappedRange
  omega

/-- The bytes outside the default map are those of R81. -/
theorem default_lookup_eq_none_iff (b : Byte) : OpMap.default.lookup b = none ↔ UnmappedRange b.toNat := by
  rw [OpMap.lookup_eq_none]
  refine ⟨unmappedRange_of_unmapped, ?_⟩
  rintro h o rfl
  exact default_not_unmappedRange o h

/-- Settles O8. -/
theorem unknownOpcodesAreExactlyTheUnmappedBytes : Obligations.UnknownOpcodesAreExactlyTheUnmappedBytes := by
  intro op rest
  exact (decodeBytesUnder_eq_unknownOpcode op rest).trans (default_lookup_eq_none_iff op)

/-- Every row of the opcode map is some instruction's: the one it reads from zero operand bytes. -/
theorem Instr.op_surjective : Function.Surjective Instr.op := by
  intro o
  have hread : ∃ i : Instr, decodeOp o (fun _ => 0) 4 = .ok i ∧ i.op = o := by cases o <;> exact ⟨_, rfl, rfl⟩
  obtain ⟨i, -, hi⟩ := hread
  exact ⟨i, hi⟩

/-- Settles O13. A byte that is no instruction's opcode is outside the map, so the step is the unknown-opcode action, whose
limit is 20 by default. -/
theorem unknownOpcodesCountThenFault : Obligations.UnknownOpcodesCountThenFault := by
  rintro s op rfl hpc hs hopcode
  have hunmapped : ∀ o, OpMap.default o ≠ Memory.get s.mem s.pc.toNat := fun o => by
    obtain ⟨i, rfl⟩ := Instr.op_surjective o
    exact hopcode i
  have hstep : step s = .next (unknownOpcode (some 20) (Memory.get s.mem s.pc.toNat) s) :=
    cycleUnder_unmapped (p := Params.default) hs hpc hunmapped
  refine ⟨fun hlt => ?_, fun hle => ?_, unknownOpcode_skips (by simp)⟩
  · rw [hstep, unknownOpcode_skips (by simpa using hlt)]
  · rw [hstep, unknownOpcode_faults (Nat.lt_succ_of_le hle)]
    rfl

/-! ## The load port -/

/-- Settles O3. Whatever the load port does not refuse comes under the default configuration. -/
theorem bootRefusesOtherConfigurations : Obligations.BootRefusesOtherConfigurations := by
  intro e image he
  rcases bootUnder_cases Params.default e image with ⟨-, -, hdefault, -⟩ | hrefused
  · exact absurd hdefault he
  · exact hrefused

end Sys2Proof
end

/-! PROOF. The frame of the registers, and EXIT and NOP with what the debug port shows. -/

section
namespace Sys2Proof.Machine

/-! ## The registers -/

@[simp] theorem State.wrapPc_reg (s : State) (j : Fin Config.nreg) : s.wrapPc.reg j = s.reg j := by
  obtain ⟨a, e⟩ := s.wrapPc_eq
  rw [e]
  rfl

/-- A write through a register byte leaves every register the byte does not name. -/
theorem State.setReg_reg_of_toNat_ne {s : State} {b : Byte} {d j : Fin Config.nreg} {v : Value} (hd : b.toNat = d.val)
    (hne : b.toNat ≠ j.val) : (s.setReg d v).reg j = s.reg j := by
  have hdj : d ≠ j := fun e => hne (hd.trans (congrArg Fin.val e))
  rw [State.setReg_reg, if_neg hdj]

/-- An instruction writes no register but the one its destination byte names. -/
theorem Effect.reg {i : Instr} {s t : State} {j : Fin Config.nreg} (h : Effect i s t)
    (hne : ∀ b, i.destination = some b → b.toNat ≠ j.val) : t.reg j = s.reg j := by
  cases h with
  | write v hb hd => exact State.setReg_reg_of_toNat_ne hd (hne _ hb)
  | compute v z hb hd hz => exact State.setReg_reg_of_toNat_ne hd (hne _ hb)
  | draw v hd => exact State.setReg_reg_of_toNat_ne hd (hne _ rfl)
  | pop v hd hsp => exact State.setReg_reg_of_toNat_ne hd (hne _ rfl)
  | _ => rfl

/-- Settles O50. -/
theorem onlyTheDestinationRegisterChanges : Obligations.OnlyTheDestinationRegisterChanges := by
  intro s t j h hpremise
  rcases step_effect_cases h with ⟨i, hf, heff⟩ | ⟨a, n, st, f, rfl, -⟩
  · exact (heff.reg fun b hb => hpremise i b hf hb).trans (s.wrapPc_reg j)
  · rfl

/-! ## The debug port -/

theorem debugPort_regs_getElem? (s : State) (i : Fin Config.nreg) : (debugPort s).regs[i.val]? = some (s.reg i) := by
  simp [debugPort, State.reg]

/-- Of the stack the debug port shows the occupied cells only (R39). -/
theorem debugPort_stack_getElem? (s : State) {k : Nat} (h : k < s.stack.length) :
    (debugPort s).stack[k]? = if k < s.sp then some s.stack[k] else none := by
  rw [debugPort, List.getElem?_take, List.getElem?_eq_getElem h]

/-! ## EXIT and NOP -/

/-- The bytes the default encoder writes for an encodable instruction are its encoding. -/
theorem encodes_of_encode {i : Instr} {bytes : List Byte} (hw : i.WellFormed = true) (hb : encode i = bytes) :
    Encodes i bytes := by
  obtain ⟨hencode, hdecode, -⟩ := encodedAs_of_encode hw hb
  exact ⟨hencode, hdecode⟩

theorem exec_exit (s : State) : exec .exit s = .next { s with status := .halted, pc := s.pc + 1 } := rfl

theorem exec_nop (s : State) : exec .nop s = .next { s with pc := s.pc + 1 } := rfl

/-- Settles O16. A halted state has ended, so no step follows; status and pc are not on the debug port. -/
theorem exitHaltsAndAdvances : Obligations.ExitHaltsAndAdvances := by
  refine ⟨encodes_of_encode rfl rfl, fun s => ⟨exec_exit s, ?_, rfl, debugPort_regs_getElem? s, rfl, fun k h => ?_,
    fun a => rfl⟩⟩
  · have hended : Ended { s with status := .halted, pc := s.pc + 1 } := by simp [Ended]
    exact (no_step_iff_ended _).mpr hended
  · exact debugPort_stack_getElem? s h

/-- Settles O17. Below the limit an unknown opcode is skipped like a NOP, and counted. -/
theorem nopOnlyAdvances : Obligations.NopOnlyAdvances := by
  refine ⟨encodes_of_encode rfl rfl, fun s => ⟨exec_nop s, fun op hlt => ?_⟩⟩
  exact unknownOpcode_skips (by simpa using hlt)

end Sys2Proof.Machine
end

/-! PROOF. The two stores of an immediate (`41_store_immediate.md`), and the example words of the instruction files. -/

section
namespace Sys2Proof

/-- The operand bytes of a 16-bit value are the two it is made of, low byte first (R50). -/
theorem halfBytes_of_toNat {h : Half} {lo hi : Byte} (hval : h.toNat = lo.toNat + 256 * hi.toNat) :
    halfBytes h = [lo, hi] := by
  obtain rfl : h = half lo hi := BitVec.eq_of_toNat_eq (hval.trans (half_toNat lo hi).symm)
  exact halfBytes_half lo hi

/-- The length field and the literal of format RT, from the two bytes of the length (R76). -/
theorem literalBytes_of_length {t : List Byte} {lo hi : Byte} (hlen : t.length = lo.toNat + 256 * hi.toNat) :
    literalBytes t = lo :: hi :: t := by
  have hval : (BitVec.ofNat 16 t.length).toNat = lo.toNat + 256 * hi.toNat := by
    rw [hlen, ← half_toNat, BitVec.ofNat_toNat, BitVec.setWidth_eq]
  rw [literalBytes, halfBytes_of_toNat hval]
  rfl

/-- Settles O9. Each word is its instruction's opcode and operand bytes, which the decoder reads back. -/
theorem exampleWordsDecode : Obligations.ExampleWordsDecode := by
  refine ⟨?_, ?_, ?_, ?_, ?_⟩ <;> exact decode_opcode_operandBytes (rest := []) rfl rfl rfl

namespace Machine

theorem exec_intStore (ra : Byte) (imm : Half) (s : State) :
    exec (.intStore ra imm) s = storeValue ra (.int (immWord imm)) 4 s := rfl

theorem exec_stringStore (ra : Byte) (text : List Byte) (s : State) :
    exec (.stringStore ra text) s = storeValue ra (.text text) (4 + text.length) s := rfl

section Store

variable {ra : Byte} {v : Value} {n : Nat} {s : State}

/-- A store whose register byte names a register. -/
theorem storeValue_ok {d : Fin Config.nreg} (hd : ra.toNat = d.val) :
    storeValue ra v n s = .next ((s.setReg d v).advance n) := by
  rcases storeValue_cases ra v n s with ⟨d', hd', e⟩ | ⟨hbad, -⟩
  · obtain rfl : d' = d := Fin.ext (hd'.symm.trans hd)
    exact e
  · exact absurd (hd ▸ d.isLt) (Nat.not_lt.mpr hbad)

/-- A store whose register byte names none (R72). -/
theorem storeValue_badIndex (h : Config.nreg ≤ ra.toNat) :
    storeValue ra v n s = .next (s.raise ⟨.indexOutOfBounds, ra.toNat⟩) := by
  rcases storeValue_cases ra v n s with ⟨d, hd, -⟩ | ⟨-, e⟩
  · exact absurd (hd ▸ d.isLt) (Nat.not_lt.mpr h)
  · exact e

end Store

/-- Settles O18. The word written is the zero-extended immediate, the only word of its value. -/
theorem intStoreWritesTheImmediate : Obligations.IntStoreWritesTheImmediate := by
  intro ra lo hi imm s himm
  have hbytes : encode (.intStore ra imm) = [0x01, ra, lo, hi] :=
    congrArg (fun bs => 0x01 :: ra :: bs) (halfBytes_of_toNat himm)
  refine ⟨encodedAs_of_encode rfl hbytes, fun d v hd hv => ?_, indexFaults_singleton storeValue_badIndex⟩
  obtain rfl : v = immWord imm := BitVec.eq_of_toNat_eq (hv.trans (immWord_toNat imm).symm)
  exact (exec_intStore ra imm s).trans (storeValue_ok hd)

/-- Settles O19. A length that two bytes hold is at most 65535, so the literal is encodable. -/
theorem stringStoreWritesTheLiteral : Obligations.StringStoreWritesTheLiteral := by
  intro ra lo hi text s hlen
  have hfits : text.length ≤ 65535 := by
    rw [hlen, ← half_toNat]
    exact Nat.le_of_lt_succ (half lo hi).isLt
  have hbytes : encode (.stringStore ra text) = [0x30, ra, lo, hi] ++ text :=
    congrArg (fun bs => 0x30 :: ra :: bs) (literalBytes_of_length hlen)
  refine ⟨encodedAs_of_encode (decide_eq_true hfits) hbytes, fun d hd => ?_, indexFaults_singleton storeValue_badIndex⟩
  exact (exec_stringStore ra text s).trans (storeValue_ok hd)

end Machine
end Sys2Proof
end

/-! PROOF. The decimal numeral (`42_io_convert_random.md` R115) and PARSE_INT, which reads it back (R117). -/

section
namespace Sys2Proof.Machine

/-! ## Digit bytes -/

theorem isDigit_iff (b : Byte) : isDigit b = true ↔ 0x30 ≤ b.toNat ∧ b.toNat ≤ 0x39 := by
  simp [isDigit]

theorem digitByte_toNat {d : Nat} (h : d < 10) : (digitByte d).toNat = 0x30 + d := by
  simp only [digitByte, BitVec.toNat_ofNat]
  omega

/-! ## The numeral -/

/-- With fuel enough for its digits, the digits of a positive number are Mathlib's, turned round. -/
theorem decDigits_eq {fuel n : Nat} (hpos : 0 < n) (hfuel : n < 10 ^ fuel) (acc : List Byte) :
    decDigits fuel n acc = ((Nat.digits 10 n).map digitByte).reverse ++ acc := by
  induction fuel generalizing n acc with
  | zero => omega
  | succ fuel ih =>
    rw [decDigits, Nat.digits_def' (by decide) hpos]
    by_cases hlast : n / 10 = 0
    · simp [hlast]
    · have hrest : n / 10 < 10 ^ fuel := by rw [pow_succ] at hfuel; omega
      simp [hlast, ih (Nat.pos_of_ne_zero hlast) hrest]

theorem dec_zero : dec 0 = [0x30#8] := rfl

theorem dec_of_ne_zero {v : Word} (h : v ≠ 0) : dec v = ((Nat.digits 10 v.toNat).map digitByte).reverse := by
  have hpos : 0 < v.toNat := by bv_omega
  have hten : v.toNat < 10 ^ 10 := by omega
  rw [dec, decDigits_eq hpos hten, List.append_nil]

theorem isDigit_of_mem_dec {v : Word} {b : Byte} (h : b ∈ dec v) : isDigit b = true := by
  by_cases hv : v = 0
  · subst hv
    obtain rfl : b = 0x30#8 := List.mem_singleton.mp h
    rfl
  · obtain ⟨d, hd, rfl⟩ : ∃ d ∈ Nat.digits 10 v.toNat, digitByte d = b := by simpa [dec_of_ne_zero hv] using h
    have hlt := Nat.digits_lt_base (by decide) hd
    rw [isDigit_iff, digitByte_toNat hlt]
    omega

/-- The value of digit bytes, most significant first, is that of the digits, least significant first. -/
theorem decValue_reverse_map_digitByte {ds : List Nat} (h : ∀ d ∈ ds, d < 10) :
    decValue (ds.map digitByte).reverse = Nat.ofDigits 10 ds := by
  rw [decValue, List.foldl_reverse]
  induction ds with
  | nil => rfl
  | cons d ds ih =>
    obtain ⟨hd, hds⟩ := List.forall_mem_cons.mp h
    rw [List.map_cons, List.foldr_cons, ih hds, digitByte_toNat hd, Nat.ofDigits_cons]
    omega

theorem decValue_dec (v : Word) : decValue (dec v) = v.toNat := by
  by_cases hv : v = 0
  · subst hv; rfl
  · rw [dec_of_ne_zero hv, decValue_reverse_map_digitByte fun d => Nat.digits_lt_base (by decide), Nat.ofDigits_digits]

theorem dec_length (v : Word) : 1 ≤ (dec v).length ∧ (dec v).length ≤ 10 := by
  by_cases hv : v = 0
  · subst hv; decide
  · rw [dec_of_ne_zero hv, List.length_reverse, List.length_map]
    have hne : Nat.digits 10 v.toNat ≠ [] := Nat.digits_ne_nil_iff_ne_zero.mpr (by bv_omega)
    refine ⟨List.length_pos_of_ne_nil hne, (Nat.digits_length_le_iff (by decide) _).mpr ?_⟩
    omega

/-- The numeral of a number that is not 0 begins with the most significant of its digits, which is not 0. -/
theorem eq_zero_of_dec_head? {v : Word} (h : (dec v).head? = some 0x30#8) : v = 0 := by
  by_contra hv
  have hv' : v.toNat ≠ 0 := by bv_omega
  have hne : Nat.digits 10 v.toNat ≠ [] := Nat.digits_ne_nil_iff_ne_zero.mpr hv'
  have hlt : (Nat.digits 10 v.toNat).getLast hne < 10 := Nat.digits_lt_base (by decide) (List.getLast_mem hne)
  rw [dec_of_ne_zero hv, List.head?_reverse, List.getLast?_map, List.getLast?_eq_some_getLast hne] at h
  have hval := congrArg BitVec.toNat (Option.some.inj h)
  rw [digitByte_toNat hlt] at hval
  exact Nat.getLast_digit_ne_zero 10 hv' (Nat.add_left_cancel hval)

/-- Settles O43. -/
theorem decIsTheShortestNumeral : Obligations.DecIsTheShortestNumeral := by
  intro v
  obtain ⟨hmin, hmax⟩ := dec_length v
  exact ⟨fun b hb => (isDigit_iff b).mp (isDigit_of_mem_dec hb), decValue_dec v, hmin, hmax, eq_zero_of_dec_head?,
    dec_zero⟩

/-! ## PARSE_INT -/

/-- The default PARSE_INT on a run of digits that another byte or the end of the text follows (R117). -/
theorem parseInt_append {d rest : List Byte} (hd : ∀ b ∈ d, isDigit b = true)
    (hrest : ∀ b, rest.head? = some b → ¬ isDigit b = true) : parseInt (d ++ rest) = BitVec.ofNat 32 (decValue d) := by
  have hstop : rest.takeWhile isDigit = [] := by
    cases rest with
    | nil => rfl
    | cons b bs => exact List.takeWhile_cons_of_neg (hrest b rfl)
  rw [parseInt, List.takeWhile_append_of_pos hd, hstop, List.append_nil]

/-- The default PARSE_INT reads back the numeral, so it satisfies the law of R117. -/
theorem parseLaw_parseInt : ParseLaw parseInt := by
  intro v
  have h := parseInt_append (d := dec v) (rest := []) (fun b => isDigit_of_mem_dec) (by simp)
  rwa [List.append_nil, decValue_dec, BitVec.ofNat_toNat, BitVec.setWidth_eq] at h

theorem Params.default_legal : Params.default.Legal where
  opMap := OpMap.default_legal
  depth := by decide
  parseInt := parseLaw_parseInt

/-- Settles O44. -/
theorem parseIntInvertsDec : Obligations.ParseIntInvertsDec := by
  refine ⟨parseLaw_parseInt, rfl, Params.default_legal, fun d rest hd hrest => ?_⟩
  rw [parseInt_append (fun b hb => (isDigit_iff b).mpr (hd b hb)) fun b hb => ?_, BitVec.toNat_ofNat]
  · rfl
  · have := hrest b hb
    rw [isDigit_iff]
    omega

end Sys2Proof.Machine
end

/-! PROOF. The instructions that read one register through IntOf or TextOf: what they do when the checks pass, and their
index and kind faults. The prints and the conversions (`42_io_convert_random.md`) are of this shape. -/

section
namespace Sys2Proof.Machine

/-! ## The kind checks of one register -/

theorem exists_reg_of_getElem? {s : State} {b : Byte} {v : Value} (h : s.regs.toList[b.toNat]? = some v) :
    ∃ d : Fin Config.nreg, b.toNat = d.val ∧ s.reg d = v := by
  obtain ⟨hlt, rfl⟩ := List.getElem?_eq_some_iff.mp h
  exact ⟨⟨b.toNat, by simpa using hlt⟩, rfl, by simp [State.reg]⟩

theorem exists_text_of_holdsText {s : State} {b : Byte} (h : holdsText s b = true) :
    ∃ (d : Fin Config.nreg) (t : List Byte), b.toNat = d.val ∧ s.reg d = .text t := by
  unfold holdsText at h
  split at h
  · next t ht =>
    obtain ⟨d, hd, hreg⟩ := exists_reg_of_getElem? ht
    exact ⟨d, t, hd, hreg⟩
  · cases h

theorem exists_int_of_holdsInt {s : State} {b : Byte} (h : holdsInt s b = true) :
    ∃ (d : Fin Config.nreg) (v : Word), b.toNat = d.val ∧ s.reg d = .int v := by
  unfold holdsInt at h
  split at h
  · next v hv =>
    obtain ⟨d, hd, hreg⟩ := exists_reg_of_getElem? hv
    exact ⟨d, v, hd, hreg⟩
  · cases h

/-- The kind check of an instruction whose only operand is read through IntOf. -/
theorem intFaults_singleton {i : Instr} {ra : Byte} {s : State}
    (h : ∀ (d : Fin Config.nreg) (t : List Byte), ra.toNat = d.val → s.reg d = .text t →
      exec i s = .next (s.raise ⟨.typeMismatch, ra.toNat⟩)) : IntFaults i [ra] [ra] s := by
  intro _ b hb
  obtain rfl : b = ra := by simpa using List.mem_of_find?_eq_some hb
  obtain ⟨d, t, hd, ht⟩ := exists_text_of_holdsText (List.find?_some hb)
  exact h d t hd ht

/-- The kind check of an instruction whose only operand is read through TextOf. -/
theorem textFaults_singleton {i : Instr} {ra : Byte} {s : State}
    (h : ∀ (d : Fin Config.nreg) (v : Word), ra.toNat = d.val → s.reg d = .int v →
      exec i s = .next (s.raise ⟨.typeMismatch, ra.toNat⟩)) : TextFaults i [ra] [ra] s := by
  intro _ b hb
  obtain rfl : b = ra := by simpa using List.mem_of_find?_eq_some hb
  obtain ⟨d, v, hd, hv⟩ := exists_int_of_holdsInt (List.find?_some hb)
  exact h d v hd hv

/-! ## One operand, read through IntOf or TextOf -/

/-- The shape of an instruction of one register read through IntOf: it completes with `f` of the register and its integer.
The `exec_…` lemmas below tie it to the instructions. -/
def intOperand (f : Fin Config.nreg → Word → State) (ra : Byte) (s : State) : Outcome :=
  settle s do
    let i ← regCheck ra
    let v ← s.intOf i
    return f i v

/-- The shape of an instruction of one register read through TextOf. -/
def textOperand (f : Fin Config.nreg → List Byte → State) (ra : Byte) (s : State) : Outcome :=
  settle s do
    let i ← regCheck ra
    let t ← s.textOf i
    return f i t

section Shapes

variable {ra : Byte} {s : State} {i : Fin Config.nreg} {v : Word} {t : List Byte}
variable {f : Fin Config.nreg → Word → State} {g : Fin Config.nreg → List Byte → State}

theorem intOperand_ok (hi : ra.toNat = i.val) (hv : s.reg i = .int v) : intOperand f ra s = .next (f i v) := by
  simp [intOperand, regCheck_ok hi, State.intOf_ok hv]

theorem intOperand_badIndex (h : Config.nreg ≤ ra.toNat) :
    intOperand f ra s = .next (s.raise ⟨.indexOutOfBounds, ra.toNat⟩) := by
  simp [intOperand, regCheck_error h]

theorem intOperand_mismatch (hi : ra.toNat = i.val) (ht : s.reg i = .text t) :
    intOperand f ra s = .next (s.raise ⟨.typeMismatch, ra.toNat⟩) := by
  simp [intOperand, regCheck_ok hi, State.intOf_error ht, hi]

theorem textOperand_ok (hi : ra.toNat = i.val) (ht : s.reg i = .text t) : textOperand g ra s = .next (g i t) := by
  simp [textOperand, regCheck_ok hi, State.textOf_ok ht]

theorem textOperand_badIndex (h : Config.nreg ≤ ra.toNat) :
    textOperand g ra s = .next (s.raise ⟨.indexOutOfBounds, ra.toNat⟩) := by
  simp [textOperand, regCheck_error h]

theorem textOperand_mismatch (hi : ra.toNat = i.val) (hv : s.reg i = .int v) :
    textOperand g ra s = .next (s.raise ⟨.typeMismatch, ra.toNat⟩) := by
  simp [textOperand, regCheck_ok hi, State.textOf_error hv, hi]

variable {I : Instr}

/-- The faults of an instruction of the IntOf shape, in the order of R210. -/
theorem faults_of_intOperand (h : exec I s = intOperand f ra s) : IndexFaults I [ra] s ∧ IntFaults I [ra] [ra] s :=
  ⟨indexFaults_singleton fun hbad => h.trans (intOperand_badIndex hbad),
    intFaults_singleton fun _ _ hd ht => h.trans (intOperand_mismatch hd ht)⟩

/-- The faults of an instruction of the TextOf shape, in the order of R210. -/
theorem faults_of_textOperand (h : exec I s = textOperand g ra s) : IndexFaults I [ra] s ∧ TextFaults I [ra] [ra] s :=
  ⟨indexFaults_singleton fun hbad => h.trans (textOperand_badIndex hbad),
    textFaults_singleton fun _ _ hd hv => h.trans (textOperand_mismatch hd hv)⟩

end Shapes

/-! ## The prints and the conversions -/

section Instructions

variable (ra : Byte) (s : State)

theorem exec_intPrint : exec (.intPrint ra) s = intOperand (fun _ v => (s.emit (.outInt v)).advance 2) ra s := rfl

theorem exec_stringPrint :
    exec (.stringPrint ra) s = textOperand (fun _ t => (s.emit (.outText t)).advance 2) ra s := rfl

theorem exec_intToString :
    exec (.intToString ra) s = intOperand (fun i v => (s.setReg i (.text (dec v))).advance 2) ra s := rfl

theorem execUnder_stringToInt (p : Params) : execUnder p (.stringToInt ra) s =
    textOperand (fun i t => (s.setReg i (.int (p.parseInt t))).advance 2) ra s := rfl

theorem exec_stringToInt :
    exec (.stringToInt ra) s = textOperand (fun i t => (s.setReg i (.int (parseInt t))).advance 2) ra s :=
  execUnder_stringToInt ra s Params.default

end Instructions

/-- Settles O20. -/
theorem printsAppendTheirEvent : Obligations.PrintsAppendTheirEvent := by
  intro ra s
  obtain ⟨hindexInt, hkindInt⟩ := faults_of_intOperand (exec_intPrint ra s)
  obtain ⟨hindexText, hkindText⟩ := faults_of_textOperand (exec_stringPrint ra s)
  exact ⟨encodedAs_of_encode rfl rfl, encodedAs_of_encode rfl rfl,
    fun i v hi hv => (exec_intPrint ra s).trans (intOperand_ok hi hv),
    fun i t hi ht => (exec_stringPrint ra s).trans (textOperand_ok hi ht), hindexInt, hkindInt, hindexText, hkindText⟩

/-- Settles O22. -/
theorem intToStringWritesTheDecimalText : Obligations.IntToStringWritesTheDecimalText := by
  intro ra s
  exact ⟨encodedAs_of_encode rfl rfl, fun i v hi hv => (exec_intToString ra s).trans (intOperand_ok hi hv),
    faults_of_intOperand (exec_intToString ra s)⟩

/-- Settles O23. The meaning under any parameters is of the TextOf shape, and the default one is among them. -/
theorem stringToIntWritesTheParsedValue : Obligations.StringToIntWritesTheParsedValue := by
  intro ra s
  obtain ⟨hindex, hkind⟩ := faults_of_textOperand (exec_stringToInt ra s)
  refine ⟨encodedAs_of_encode rfl rfl, fun i t hi ht => (exec_stringToInt ra s).trans (textOperand_ok hi ht), hindex,
    hkind, fun p => ?_⟩
  have hshape := execUnder_stringToInt ra s p
  exact ⟨fun i t hi ht => hshape.trans (textOperand_ok hi ht), fun hbad => hshape.trans (textOperand_badIndex hbad),
    fun i v hi hv => hshape.trans (textOperand_mismatch hi hv)⟩

end Sys2Proof.Machine
end

/-! PROOF. The arithmetic and bitwise instructions (`43_arithmetic.md`): the first failing check in the order of R210, for any
sequence of checks, and the result of each operation as the one word of its value. -/

section
namespace Sys2Proof.Machine

/-! ## The first failing check -/

/-- A sequence of checks reports the first of the bytes `bs` that `bad` picks out, with cause `c`. The lemmas
`indexFaults_of_settle` and `intFaults_of_settle` tie it to the faults of the instructions. -/
def ReportsFirst (bad : Byte → Bool) (c : Cause) (bs : List Byte) (x : Except Raise State) : Prop :=
  ∀ b, bs.find? bad = some b → x = .error ⟨c, b.toNat⟩

section Checks

variable {bad : Byte → Bool} {c : Cause} {b : Byte} {bs ops srcs : List Byte} {x : Except Raise State}
variable {i : Fin Config.nreg} {s : State} {I : Instr}

theorem reportsFirst_nil : ReportsFirst bad c [] x := by simp [ReportsFirst]

theorem reportsFirst_cons (hbad : bad b = true → x = .error ⟨c, b.toNat⟩) (hgood : bad b = false → ReportsFirst bad c bs x) :
    ReportsFirst bad c (b :: bs) x := by
  intro b' hb'
  cases hb : bad b with
  | true =>
    obtain rfl : b = b' := by simpa [hb] using hb'
    exact hbad hb
  | false => exact hgood hb b' (by simpa [hb] using hb')

theorem exists_index_of_badIndex_eq_false (h : badIndex b = false) : ∃ d : Fin Config.nreg, b.toNat = d.val :=
  ⟨⟨b.toNat, Nat.not_le.mp (of_decide_eq_false h)⟩, rfl⟩

/-- An index check in front of checks that report in order (R210 item 2). -/
theorem regCheck_reportsFirst {k : Fin Config.nreg → Except Raise State}
    (h : ∀ d, ReportsFirst badIndex .indexOutOfBounds bs (k d)) :
    ReportsFirst badIndex .indexOutOfBounds (b :: bs) (regCheck b >>= k) := by
  refine reportsFirst_cons (fun hbad => ?_) fun hgood => ?_
  · rw [regCheck_error ((badIndex_iff b).mp hbad), except_error_bind]
  · obtain ⟨d, hd⟩ := exists_index_of_badIndex_eq_false hgood
    rw [regCheck_ok hd, except_ok_bind]
    exact h d

theorem holdsText_iff (hi : b.toNat = i.val) : holdsText s b = true ↔ ∃ t, s.reg i = .text t := by
  have hget : s.regs.toList[b.toNat]? = some (s.reg i) := by simp [hi, State.reg]
  cases hv : s.reg i <;> simp [holdsText, hget, hv]

/-- A read through IntOf in front of checks that report in order (R210 item 3). -/
theorem intOf_reportsFirst {k : Word → Except Raise State} (hi : b.toNat = i.val)
    (h : ∀ v, ReportsFirst (holdsText s) .typeMismatch bs (k v)) :
    ReportsFirst (holdsText s) .typeMismatch (b :: bs) (s.intOf i >>= k) := by
  refine reportsFirst_cons (fun htext => ?_) fun hint => ?_
  · obtain ⟨t, ht⟩ := (holdsText_iff hi).mp htext
    rw [State.intOf_error ht, except_error_bind, hi]
  · cases hv : s.reg i with
    | int v =>
      rw [State.intOf_ok hv, except_ok_bind]
      exact h v
    | text t => simp [(holdsText_iff hi).mpr ⟨t, hv⟩] at hint

theorem indexFaults_of_settle (h : exec I s = settle s x) (hx : ReportsFirst badIndex .indexOutOfBounds ops x) :
    IndexFaults I ops s := by
  intro b hb
  rw [Faults, h, hx b hb]
  rfl

theorem intFaults_of_settle (h : exec I s = settle s x)
    (hx : (∀ b ∈ ops, ∃ d : Fin Config.nreg, b.toNat = d.val) → ReportsFirst (holdsText s) .typeMismatch srcs x) :
    IntFaults I ops srcs s := by
  intro hops b hb
  have hgood : ∀ b ∈ ops, ∃ d : Fin Config.nreg, b.toNat = d.val := fun b hmem =>
    exists_index_of_badIndex_eq_false (Bool.eq_false_of_not_eq_true (List.find?_eq_none.mp hops b hmem))
  rw [Faults, h, hx hgood b hb]
  rfl

end Checks

/-! ## The two shapes -/

/-- The zero check looks at the value of the result (R29). -/
theorem zeroFlag_eq (r : Word) : zeroFlag r = decide (r.toNat = 0) := by
  simp [zeroFlag, BitVec.toNat_eq]

section Shapes

variable {f : Word → Word → Except Raise Word} {g : Word → Word} {ra rb rc : Byte} {s : State} {I : Instr}
variable {d i j : Fin Config.nreg} {a b r : Word}

/-- A binary operation whose checks pass, as a whole next state. -/
theorem exec_of_binaryOp_ok (h : exec I s = binaryOp f ra rb rc s) (hd : ra.toNat = d.val) (hi : rb.toNat = i.val)
    (hj : rc.toNat = j.val) (ha : s.reg i = .int a) (hb : s.reg j = .int b) (hr : f a b = .ok r) :
    exec I s = .next { s with
      regs := s.regs.set d.val (.int r) d.isLt, z := decide (r.toNat = 0), pc := s.pc + 4 } := by
  rw [h, binaryOp_ok hd hi hj ha hb hr, zeroFlag_eq]
  rfl

/-- A binary operation that raises once its sources are read. -/
theorem faults_of_binaryOp_error {e : Raise} (h : exec I s = binaryOp f ra rb rc s) (hd : ra.toNat = d.val)
    (hi : rb.toNat = i.val) (hj : rc.toNat = j.val) (ha : s.reg i = .int a) (hb : s.reg j = .int b)
    (hr : f a b = .error e) : Faults I s e.cause e.info := by
  rw [Faults, h]
  simp [binaryOp, regCheck_ok hd, regCheck_ok hi, regCheck_ok hj, State.intOf_ok ha, State.intOf_ok hb, hr, State.raise]

/-- The index and kind faults of a binary operation: the destination byte is checked first, and its kind never. -/
theorem faults_of_binaryOp (h : exec I s = binaryOp f ra rb rc s) :
    IndexFaults I [ra, rb, rc] s ∧ IntFaults I [ra, rb, rc] [rb, rc] s := by
  refine ⟨indexFaults_of_settle h ?_, intFaults_of_settle h fun hgood => ?_⟩
  · exact regCheck_reportsFirst fun _ => regCheck_reportsFirst fun _ => regCheck_reportsFirst fun _ => reportsFirst_nil
  · obtain ⟨d, hd⟩ := hgood ra (by simp)
    obtain ⟨i, hi⟩ := hgood rb (by simp)
    obtain ⟨j, hj⟩ := hgood rc (by simp)
    simp only [regCheck_ok hd, regCheck_ok hi, regCheck_ok hj, except_ok_bind]
    exact intOf_reportsFirst hi fun _ => intOf_reportsFirst hj fun _ => reportsFirst_nil

/-- An INC or DEC whose checks pass, as a whole next state. -/
theorem exec_of_unaryOp_ok (h : exec I s = unaryOp g ra s) (hi : ra.toNat = i.val) (ha : s.reg i = .int a)
    (hr : g a = r) : exec I s = .next { s with
      regs := s.regs.set i.val (.int r) i.isLt, z := decide (r.toNat = 0), pc := s.pc + 2 } := by
  rw [h, unaryOp_ok hi ha, zeroFlag_eq, hr]
  rfl

theorem unaryOp_eq_intOperand (g : Word → Word) (ra : Byte) (s : State) : unaryOp g ra s =
    intOperand (fun i a => ((s.setReg i (.int (g a))).setZ (zeroFlag (g a))).advance 2) ra s := rfl

theorem faults_of_unaryOp (h : exec I s = unaryOp g ra s) : IndexFaults I [ra] s ∧ IntFaults I [ra] [ra] s :=
  faults_of_intOperand (h.trans (unaryOp_eq_intOperand g ra s))

end Shapes

/-! ## The results -/

section Results

variable {a b r : Word}

theorem add_eq_of_toNat (h : r.toNat = (a.toNat + b.toNat) % 2 ^ 32) : a + b = r :=
  BitVec.eq_of_toNat_eq ((BitVec.toNat_add a b).trans h.symm)

/-- The difference modulo 2^32 as an integer, with the remainder that is not negative. -/
theorem sub_eq_of_toNat (h : (r.toNat : Int) = ((a.toNat : Int) - (b.toNat : Int)) % 2 ^ 32) : a - b = r := by
  apply BitVec.eq_of_toNat_eq
  rw [BitVec.toNat_sub]
  omega

theorem mul_eq_of_toNat (h : r.toNat = (a.toNat * b.toNat) % 2 ^ 32) : a * b = r :=
  BitVec.eq_of_toNat_eq ((BitVec.toNat_mul a b).trans h.symm)

theorem divide_of_toNat (hb : b.toNat ≠ 0) (h : r.toNat = a.toNat / b.toNat) : divide a b = .ok r := by
  have hne : b ≠ 0 := fun e => hb (congrArg BitVec.toNat e)
  have hquot : a / b = r := BitVec.eq_of_toNat_eq (BitVec.toNat_udiv.trans h.symm)
  rw [divide, if_neg hne, hquot]

theorem divide_by_zero (hb : b.toNat = 0) : divide a b = .error ⟨.divisionByZero, 0⟩ :=
  if_pos (BitVec.eq_of_toNat_eq hb)

theorem xor_eq_of_getLsbD (h : ∀ k, r.getLsbD k = (a.getLsbD k).xor (b.getLsbD k)) : a ^^^ b = r :=
  BitVec.eq_of_getLsbD_eq fun k _ => BitVec.getLsbD_xor.trans (h k).symm

theorem and_eq_of_getLsbD (h : ∀ k, r.getLsbD k = (a.getLsbD k && b.getLsbD k)) : a &&& b = r :=
  BitVec.eq_of_getLsbD_eq fun k _ => BitVec.getLsbD_and.trans (h k).symm

theorem or_eq_of_getLsbD (h : ∀ k, r.getLsbD k = (a.getLsbD k || b.getLsbD k)) : a ||| b = r :=
  BitVec.eq_of_getLsbD_eq fun k _ => BitVec.getLsbD_or.trans (h k).symm

end Results

/-! ## The instructions -/

section Instructions

variable (ra rb rc : Byte) (s : State)

theorem exec_add : exec (.add ra rb rc) s = binaryOp (fun a b => .ok (a + b)) ra rb rc s := rfl

theorem exec_sub : exec (.sub ra rb rc) s = binaryOp (fun a b => .ok (a - b)) ra rb rc s := rfl

theorem exec_mul : exec (.mul ra rb rc) s = binaryOp (fun a b => .ok (a * b)) ra rb rc s := rfl

theorem exec_div : exec (.div ra rb rc) s = binaryOp divide ra rb rc s := rfl

theorem exec_xor : exec (.xor ra rb rc) s = binaryOp (fun a b => .ok (a ^^^ b)) ra rb rc s := rfl

theorem exec_and : exec (.and ra rb rc) s = binaryOp (fun a b => .ok (a &&& b)) ra rb rc s := rfl

theorem exec_or : exec (.or ra rb rc) s = binaryOp (fun a b => .ok (a ||| b)) ra rb rc s := rfl

theorem exec_inc : exec (.inc ra) s = unaryOp (fun a => a + 1) ra s := rfl

theorem exec_dec : exec (.dec ra) s = unaryOp (fun a => a - 1) ra s := rfl

end Instructions

/-- Settles O25. The three are binary operations that never raise, so the result is the one word of the given value. -/
theorem addSubMulWriteTheResultAndZ : Obligations.AddSubMulWriteTheResultAndZ := by
  intro ra rb rc s
  refine ⟨encodedAs_of_encode rfl rfl, encodedAs_of_encode rfl rfl, encodedAs_of_encode rfl rfl,
    fun d i j a b r hd hi hj ha hb => ⟨fun hr => ?_, fun hr => ?_, fun hr => ?_⟩, ?_⟩
  · exact exec_of_binaryOp_ok (exec_add ra rb rc s) hd hi hj ha hb (congrArg Except.ok (add_eq_of_toNat hr))
  · exact exec_of_binaryOp_ok (exec_sub ra rb rc s) hd hi hj ha hb (congrArg Except.ok (sub_eq_of_toNat hr))
  · exact exec_of_binaryOp_ok (exec_mul ra rb rc s) hd hi hj ha hb (congrArg Except.ok (mul_eq_of_toNat hr))
  · rw [List.forall_mem_cons, List.forall_mem_cons, List.forall_mem_singleton]
    exact ⟨faults_of_binaryOp (exec_add ra rb rc s), faults_of_binaryOp (exec_sub ra rb rc s),
      faults_of_binaryOp (exec_mul ra rb rc s)⟩

/-- Settles O26. The divisor is looked at after both kind checks. -/
theorem divWritesTheQuotientOrFaults : Obligations.DivWritesTheQuotientOrFaults := by
  intro ra rb rc s
  have hshape := exec_div ra rb rc s
  refine ⟨encodedAs_of_encode rfl rfl, fun d i j a b hd hi hj ha hb => ⟨fun r hne hr => ?_, fun hzero => ?_⟩,
    faults_of_binaryOp hshape⟩
  · exact exec_of_binaryOp_ok hshape hd hi hj ha hb (divide_of_toNat hne hr)
  · exact faults_of_binaryOp_error hshape hd hi hj ha hb (divide_by_zero hzero)

/-- Settles O27. A word is determined by its bits. -/
theorem bitwiseOperationsWriteTheResultAndZ : Obligations.BitwiseOperationsWriteTheResultAndZ := by
  intro ra rb rc s
  refine ⟨encodedAs_of_encode rfl rfl, encodedAs_of_encode rfl rfl, encodedAs_of_encode rfl rfl,
    fun d i j a b r hd hi hj ha hb => ⟨fun hr => ?_, fun hr => ?_, fun hr => ?_⟩, ?_⟩
  · exact exec_of_binaryOp_ok (exec_xor ra rb rc s) hd hi hj ha hb (congrArg Except.ok (xor_eq_of_getLsbD hr))
  · exact exec_of_binaryOp_ok (exec_and ra rb rc s) hd hi hj ha hb (congrArg Except.ok (and_eq_of_getLsbD hr))
  · exact exec_of_binaryOp_ok (exec_or ra rb rc s) hd hi hj ha hb (congrArg Except.ok (or_eq_of_getLsbD hr))
  · rw [List.forall_mem_cons, List.forall_mem_cons, List.forall_mem_singleton]
    exact ⟨faults_of_binaryOp (exec_xor ra rb rc s), faults_of_binaryOp (exec_and ra rb rc s),
      faults_of_binaryOp (exec_or ra rb rc s)⟩

/-- Settles O28. INC and DEC add and subtract the word 1, whose value is 1. -/
theorem incDecWriteTheResultAndZ : Obligations.IncDecWriteTheResultAndZ := by
  intro ra s
  refine ⟨encodedAs_of_encode rfl rfl, encodedAs_of_encode rfl rfl,
    fun i a r hi ha => ⟨fun hr => ?_, fun hr => ?_⟩, ?_⟩
  · exact exec_of_unaryOp_ok (exec_inc ra s) hi ha (add_eq_of_toNat hr)
  · exact exec_of_unaryOp_ok (exec_dec ra s) hi ha (sub_eq_of_toNat hr)
  · rw [List.forall_mem_cons, List.forall_mem_singleton]
    exact ⟨faults_of_unaryOp (exec_inc ra s), faults_of_unaryOp (exec_dec ra s)⟩

end Sys2Proof.Machine
end

/-! PROOF. CONCAT and SYSTEM (`44_text_system.md`): the first failing kind check of registers read through TextOf, CONCAT with
its two sources, and SYSTEM, which is of the shape of one register read through TextOf. -/

section
namespace Sys2Proof.Machine

/-! ## The first failing check of registers read through TextOf -/

section Checks

variable {b : Byte} {bs ops srcs : List Byte} {x : Except Raise State} {i : Fin Config.nreg} {s : State} {I : Instr}

theorem holdsInt_iff (hi : b.toNat = i.val) : holdsInt s b = true ↔ ∃ v, s.reg i = .int v := by
  have hget : s.regs.toList[b.toNat]? = some (s.reg i) := by simp [hi, State.reg]
  cases hv : s.reg i <;> simp [holdsInt, hget, hv]

/-- A read through TextOf in front of checks that report in order (R210 item 3). -/
theorem textOf_reportsFirst {k : List Byte → Except Raise State} (hi : b.toNat = i.val)
    (h : ∀ t, ReportsFirst (holdsInt s) .typeMismatch bs (k t)) :
    ReportsFirst (holdsInt s) .typeMismatch (b :: bs) (s.textOf i >>= k) := by
  refine reportsFirst_cons (fun hint => ?_) fun htext => ?_
  · obtain ⟨v, hv⟩ := (holdsInt_iff hi).mp hint
    rw [State.textOf_error hv, except_error_bind, hi]
  · cases ht : s.reg i with
    | int v => simp [(holdsInt_iff hi).mpr ⟨v, ht⟩] at htext
    | text t =>
      rw [State.textOf_ok ht, except_ok_bind]
      exact h t

theorem exists_index_of_find?_badIndex (h : ops.find? badIndex = none) (hb : b ∈ ops) :
    ∃ d : Fin Config.nreg, b.toNat = d.val :=
  exists_index_of_badIndex_eq_false (Bool.eq_false_of_not_eq_true (List.find?_eq_none.mp h b hb))

theorem textFaults_of_settle (h : exec I s = settle s x)
    (hx : (∀ b ∈ ops, ∃ d : Fin Config.nreg, b.toNat = d.val) → ReportsFirst (holdsInt s) .typeMismatch srcs x) :
    TextFaults I ops srcs s := by
  intro hops b hb
  rw [Faults, h, hx (fun _ => exists_index_of_find?_badIndex hops) b hb]
  rfl

end Checks

/-! ## CONCAT -/

section Concat

variable {ra rb rc : Byte} {s : State} {d i j : Fin Config.nreg} {t u : List Byte}

theorem exec_concat (ra rb rc : Byte) (s : State) : exec (.concat ra rb rc) s = execConcat ra rb rc s := rfl

theorem execConcat_ok (hd : ra.toNat = d.val) (hi : rb.toNat = i.val) (hj : rc.toNat = j.val)
    (ht : s.reg i = .text t) (hu : s.reg j = .text u) :
    execConcat ra rb rc s = .next ((s.setReg d (.text (t ++ u))).advance 4) := by
  simp [execConcat, regCheck_ok hd, regCheck_ok hi, regCheck_ok hj, State.textOf_ok ht, State.textOf_ok hu]

theorem indexFaults_concat (ra rb rc : Byte) (s : State) : IndexFaults (.concat ra rb rc) [ra, rb, rc] s :=
  indexFaults_of_settle (exec_concat ra rb rc s) <|
    regCheck_reportsFirst fun _ => regCheck_reportsFirst fun _ => regCheck_reportsFirst fun _ => reportsFirst_nil

/-- The kinds of the two sources are checked in encoding order; the destination's kind never is. -/
theorem textFaults_concat (ra rb rc : Byte) (s : State) : TextFaults (.concat ra rb rc) [ra, rb, rc] [rb, rc] s := by
  refine textFaults_of_settle (exec_concat ra rb rc s) fun hgood => ?_
  obtain ⟨d, hd⟩ := hgood ra (by simp)
  obtain ⟨i, hi⟩ := hgood rb (by simp)
  obtain ⟨j, hj⟩ := hgood rc (by simp)
  simp only [regCheck_ok hd, regCheck_ok hi, regCheck_ok hj, except_ok_bind]
  exact textOf_reportsFirst hi fun _ => textOf_reportsFirst hj fun _ => reportsFirst_nil

end Concat

/-- Settles O29. -/
theorem concatWritesBothTexts : Obligations.ConcatWritesBothTexts := by
  intro ra rb rc s
  exact ⟨encodedAs_of_encode rfl rfl,
    fun d i j t u hd hi hj ht hu => (exec_concat ra rb rc s).trans (execConcat_ok hd hi hj ht hu),
    indexFaults_concat ra rb rc s, textFaults_concat ra rb rc s⟩

/-! ## SYSTEM -/

theorem exec_system (ra : Byte) (s : State) :
    exec (.system ra) s = textOperand (fun _ t => (s.emit (.system t)).advance 2) ra s := rfl

/-- Settles O21. SYSTEM is of the TextOf shape, as STRING_PRINT is, and completes with one event. -/
theorem systemAppendsItsCommand : Obligations.SystemAppendsItsCommand := by
  intro ra s
  exact ⟨encodedAs_of_encode rfl rfl, fun i t hi ht => (exec_system ra s).trans (textOperand_ok hi ht),
    faults_of_textOperand (exec_system ra s)⟩

end Sys2Proof.Machine
end

/-! PROOF. JMP, JMPZ and JMPNZ (`45_jumps.md`): the encoding of an instruction with a 16-bit target, and the two outcomes of a
branch. -/

section
namespace Sys2Proof.Machine

/-! ## Format A -/

/-- The encoding of an opcode with a 16-bit target, from the two bytes of the target, low byte first (R71, R75). -/
theorem encodedAs_of_target {i : Instr} {op lo hi : Byte} {target : Half} (hw : i.WellFormed = true)
    (henc : encode i = op :: halfBytes target) (htarget : target.toNat = lo.toNat + 256 * hi.toNat) :
    EncodedAs i [op, lo, hi] :=
  encodedAs_of_encode hw (henc.trans (congrArg (op :: ·) (halfBytes_of_toNat htarget)))

/-- The target is the only word of its value: pc takes it without sign extension or displacement (R75, R143). -/
theorem eq_targetWord_of_toNat {a : Word} {target : Half} (h : a.toNat = target.toNat) : a = targetWord target :=
  BitVec.eq_of_toNat_eq (h.trans (targetWord_toNat target).symm)

/-! ## The two outcomes of a branch -/

section Branch

variable {taken : Bool} {target : Half} {s : State}

theorem branch_taken (h : taken = true) : branch taken target s = .next { s with pc := targetWord target } := by
  subst h
  rfl

theorem branch_fallsThrough (h : taken = false) : branch taken target s = .next { s with pc := s.pc + 3 } := by
  subst h
  rfl

end Branch

/-! ## The jumps -/

section Instructions

variable (target : Half) (s : State)

theorem exec_jmp : exec (.jmp target) s = branch true target s := rfl

theorem exec_jmpz : exec (.jmpz target) s = branch s.z target s := rfl

theorem exec_jmpnz : exec (.jmpnz target) s = branch (!s.z) target s := rfl

end Instructions

/-- Settles O30. The three jumps are one branch, on true, on Z and on its negation. -/
theorem jumpsBranchOnZ : Obligations.JumpsBranchOnZ := by
  intro lo hi target s a htarget ha
  obtain rfl := eq_targetWord_of_toNat ha
  refine ⟨encodedAs_of_target rfl rfl htarget, encodedAs_of_target rfl rfl htarget, encodedAs_of_target rfl rfl htarget,
    ?jmp, ?jmpzTaken, ?jmpzNotTaken, ?jmpnzTaken, ?jmpnzNotTaken⟩
  case jmp => exact (exec_jmp target s).trans (branch_taken rfl)
  case jmpzTaken => exact fun hz => (exec_jmpz target s).trans (branch_taken hz)
  case jmpzNotTaken => exact fun hz => (exec_jmpz target s).trans (branch_fallsThrough hz)
  case jmpnzTaken => exact fun hz => (exec_jmpnz target s).trans (branch_taken (by rw [hz, Bool.not_false]))
  case jmpnzNotTaken => exact fun hz => (exec_jmpnz target s).trans (branch_fallsThrough (by rw [hz, Bool.not_true]))

end Sys2Proof.Machine
end

/-! PROOF. The comparisons and the kind predicates (`46_compare_predicates.md`): Z of a comparison as equality of Values, the
test of one register, and CMP_REG, which looks at two. -/

section
namespace Sys2Proof.Machine

/-! ## The answers -/

/-- Z of a comparison is equality of Values: an Integer never equals a Text (R145, R150). -/
theorem equalFlag_eq_decide (v w : Value) : equalFlag v w = decide (v = w) := by
  cases v with
  | int a => cases w <;> simp [equalFlag]
  | text t => cases w <;> simp [equalFlag]

/-- An Integer against a zero-extended immediate is compared on its whole 32-bit value (R146). -/
theorem equalFlag_int_immWord (a : Word) (imm : Half) :
    equalFlag (.int a) (.int (immWord imm)) = decide (a.toNat = imm.toNat) :=
  decide_eq_decide.mpr (by rw [BitVec.toNat_eq, immWord_toNat])

/-! ## The test of one register -/

section Test

variable {f : Value → Bool} {ra : Byte} {n : Nat} {s : State} {I : Instr} {b : Bool}

/-- A test whose register byte names a register, as a whole next state: Z and pc, whatever the kind of the register. -/
theorem exec_of_testReg_ok {i : Fin Config.nreg} (h : exec I s = testReg f ra n s) (hi : ra.toNat = i.val)
    (hb : f (s.reg i) = b) : exec I s = .next { s with z := b, pc := s.pc + BitVec.ofNat 32 n } := by
  subst hb
  rcases testReg_cases f ra n s with ⟨i', hi', e⟩ | ⟨hbad, -⟩
  · obtain rfl : i' = i := Fin.ext (hi'.symm.trans hi)
    exact h.trans e
  · exact absurd (hi ▸ i.isLt) (Nat.not_lt.mpr hbad)

/-- The only fault of a test is that of its index check (R72). -/
theorem indexFaults_of_testReg (h : exec I s = testReg f ra n s) : IndexFaults I [ra] s :=
  indexFaults_of_settle h (regCheck_reportsFirst fun _ => reportsFirst_nil)

end Test

/-! ## The instructions -/

section Instructions

variable (ra rb : Byte) (s : State)

theorem exec_cmpReg : exec (.cmpReg ra rb) s = execCmpReg ra rb s := rfl

theorem exec_cmpImm (imm : Half) :
    exec (.cmpImm ra imm) s = testReg (fun v => equalFlag v (.int (immWord imm))) ra 4 s := rfl

theorem exec_cmpStr (text : List Byte) :
    exec (.cmpStr ra text) s = testReg (fun v => equalFlag v (.text text)) ra (4 + text.length) s := rfl

theorem exec_isString : exec (.isString ra) s = testReg isTextFlag ra 2 s := rfl

theorem exec_isInteger : exec (.isInteger ra) s = testReg isIntFlag ra 2 s := rfl

theorem execCmpReg_ok {i j : Fin Config.nreg} (hi : ra.toNat = i.val) (hj : rb.toNat = j.val) :
    execCmpReg ra rb s = .next ((s.setZ (equalFlag (s.reg i) (s.reg j))).advance 3) := by
  simp [execCmpReg, regCheck_ok hi, regCheck_ok hj]

theorem indexFaults_cmpReg : IndexFaults (.cmpReg ra rb) [ra, rb] s :=
  indexFaults_of_settle (exec_cmpReg ra rb s) <|
    regCheck_reportsFirst fun _ => regCheck_reportsFirst fun _ => reportsFirst_nil

end Instructions

/-- Settles O31. -/
theorem cmpRegSetsZ : Obligations.CmpRegSetsZ := by
  intro ra rb s
  refine ⟨encodedAs_of_encode rfl rfl, fun i j hi hj => ?_, indexFaults_cmpReg ra rb s⟩
  rw [exec_cmpReg, execCmpReg_ok ra rb s hi hj, equalFlag_eq_decide]
  rfl

/-- Settles O32. -/
theorem cmpImmSetsZ : Obligations.CmpImmSetsZ := by
  intro ra lo hi imm s himm
  have hshape := exec_cmpImm ra s imm
  have hbytes : encode (.cmpImm ra imm) = [0x41, ra, lo, hi] :=
    congrArg (fun bs => 0x41 :: ra :: bs) (halfBytes_of_toNat himm)
  refine ⟨encodedAs_of_encode rfl hbytes, fun i hra => ⟨fun a ha => ?int, fun t ht => ?text⟩, indexFaults_of_testReg hshape⟩
  case int => exact exec_of_testReg_ok hshape hra (by rw [ha, equalFlag_int_immWord])
  case text => exact exec_of_testReg_ok hshape hra (by rw [ht, equalFlag])

/-- Settles O33. A length that two bytes hold is at most 65535, so the literal is encodable. -/
theorem cmpStrSetsZ : Obligations.CmpStrSetsZ := by
  intro ra lo hi text s hlen
  have hshape := exec_cmpStr ra s text
  have hfits : text.length ≤ 65535 := by
    have := lo.isLt
    have := hi.isLt
    omega
  have hbytes : encode (.cmpStr ra text) = [0x42, ra, lo, hi] ++ text :=
    congrArg (fun bs => 0x42 :: ra :: bs) (literalBytes_of_length hlen)
  exact ⟨encodedAs_of_encode (decide_eq_true hfits) hbytes,
    fun i hra => exec_of_testReg_ok hshape hra (equalFlag_eq_decide (s.reg i) (.text text)), indexFaults_of_testReg hshape⟩

/-- Settles O34. On each kind the two predicates answer opposite. -/
theorem typePredicatesSetZ : Obligations.TypePredicatesSetZ := by
  intro ra s
  have hstring := exec_isString ra s
  have hinteger := exec_isInteger ra s
  refine ⟨encodedAs_of_encode rfl rfl, encodedAs_of_encode rfl rfl,
    fun i hra => ⟨fun t ht => ⟨?textIsString, ?textIsInteger⟩, fun v hv => ⟨?intIsString, ?intIsInteger⟩⟩,
    indexFaults_of_testReg hstring, indexFaults_of_testReg hinteger⟩
  case textIsString => exact exec_of_testReg_ok hstring hra (by rw [ht, isTextFlag])
  case textIsInteger => exact exec_of_testReg_ok hinteger hra (by rw [ht, isIntFlag])
  case intIsString => exact exec_of_testReg_ok hstring hra (by rw [hv, isTextFlag])
  case intIsInteger => exact exec_of_testReg_ok hinteger hra (by rw [hv, isIntFlag])

end Sys2Proof.Machine
end

/-! PROOF. MOV (`47_move.md`) and the memory instructions (`48_memory_ops.md`): the checked accesses, the byte MEMCPY's loop
leaves at each address of its destination, and the instructions with their faults in the order of R210. -/

section
namespace Sys2Proof.Machine

/-! ## The checked accesses -/

theorem State.memRead_ok {s : State} {a : Word} (h : a.toNat < Config.memSize) :
    s.memRead a = .ok (Memory.get s.mem a.toNat) := if_pos h

theorem State.memRead_error {s : State} {a : Word} (h : Config.memSize ≤ a.toNat) :
    s.memRead a = .error ⟨.addressOutOfRange, a.toNat⟩ := if_neg (Nat.not_lt.mpr h)

theorem State.memWrite_error {s : State} {a : Word} {b : Byte} (h : Config.memSize ≤ a.toNat) :
    s.memWrite a b = .error ⟨.addressOutOfRange, a.toNat⟩ := if_neg (Nat.not_lt.mpr h)

theorem rangeCheck_error {a n : Word} (hn : 0 < n.toNat) (h : Config.memSize < a.toNat + n.toNat) :
    rangeCheck a n = .error ⟨.addressOutOfRange, a.toNat⟩ := if_pos ⟨hn, h⟩

/-! ## The loop of MEMCPY -/

/-- The first byte copied: no later one goes to its address. -/
theorem Memory.get_copyUp_base (m : Memory) (d s n : Nat) :
    Memory.get (Memory.copyUp m d s (n + 1)) d = Memory.get m s := by
  rw [Memory.copyUp, Memory.get_copyUp_outside _ _ _ _ _ (by omega), Memory.get_set, if_pos rfl]

/-- A copy to the source's base or below it gives the source's original bytes: each is read before it is overwritten. -/
theorem Memory.get_copyUp_of_le {m : Memory} {d s n x : Nat} (h : d ≤ s) (hx : x < n) :
    Memory.get (Memory.copyUp m d s n) (d + x) = Memory.get m (s + x) := by
  induction n generalizing m d s x with
  | zero => omega
  | succ n ih =>
    cases x with
    | zero => exact Memory.get_copyUp_base m d s n
    | succ x =>
      rw [Memory.copyUp, show d + (x + 1) = d + 1 + x by omega, ih (by omega) (by omega), Memory.get_set, if_neg (by omega)]
      congr 1
      omega

/-- The next place in a period. -/
theorem add_one_mod_eq_ite {p : Nat} (hp : 0 < p) (x : Nat) : (x + 1) % p = if x % p + 1 = p then 0 else x % p + 1 := by
  have hlt := Nat.mod_lt x hp
  rw [← Nat.mod_add_mod]
  split
  · next hlast => rw [hlast, Nat.mod_self]
  · exact Nat.mod_eq_of_lt (by omega)

/-- A copy to above the source's base repeats the first `d - s` bytes of the source: the byte written at `d` is the one the
loop reads when it comes there (R162). -/
theorem Memory.get_copyUp_of_lt {m : Memory} {d s n x : Nat} (h : s < d) (hx : x < n) :
    Memory.get (Memory.copyUp m d s n) (d + x) = Memory.get m (s + x % (d - s)) := by
  induction n generalizing m d s x with
  | zero => omega
  | succ n ih =>
    cases x with
    | zero => exact (Nat.zero_mod (d - s)).symm ▸ Memory.get_copyUp_base m d s n
    | succ x =>
      rw [Memory.copyUp, show d + (x + 1) = d + 1 + x by omega, ih (by omega) (by omega), Memory.get_set,
        show d + 1 - (s + 1) = d - s by omega, add_one_mod_eq_ite (by omega)]
      by_cases hlast : x % (d - s) + 1 = d - s
      · rw [if_pos (by omega), if_pos hlast, Nat.add_zero]
      · rw [if_neg (by omega), if_neg hlast]
        congr 1
        omega

/-- A copy to a range that shares no byte with the source gives the source's original bytes. -/
theorem Memory.get_copyUp_of_disjoint {m : Memory} {d s n x : Nat} (h : s + n ≤ d) (hx : x < n) :
    Memory.get (Memory.copyUp m d s n) (d + x) = Memory.get m (s + x) := by
  rw [Memory.get_copyUp_of_lt (by omega) hx, Nat.mod_eq_of_lt (by omega)]

section Instructions

variable {ra rb rc : Byte} {s : State} {d i j k : Fin Config.nreg} {v a n w : Word} {I : Instr}

/-- The index faults of an instruction that begins with the checks of its two register bytes. -/
theorem indexFaults_pair {f : Fin Config.nreg → Fin Config.nreg → Except Raise State}
    (h : exec I s = settle s (regCheck ra >>= fun d => regCheck rb >>= f d)) : IndexFaults I [ra, rb] s :=
  indexFaults_of_settle h <| regCheck_reportsFirst fun _ => regCheck_reportsFirst fun _ => reportsFirst_nil

/-! ## MOV -/

theorem exec_mov (ra rb : Byte) (s : State) : exec (.mov ra rb) s = execMov ra rb s := rfl

theorem execMov_ok (hd : ra.toNat = d.val) (hi : rb.toNat = i.val) :
    execMov ra rb s = .next ((s.setReg d (s.reg i)).advance 3) := by
  simp [execMov, regCheck_ok hd, regCheck_ok hi]

theorem indexFaults_mov (ra rb : Byte) (s : State) : IndexFaults (.mov ra rb) [ra, rb] s :=
  indexFaults_pair (exec_mov ra rb s)

/-! ## PEEK -/

theorem exec_peek (ra rb : Byte) (s : State) : exec (.peek ra rb) s = execPeek ra rb s := rfl

theorem execPeek_ok (hd : ra.toNat = d.val) (hi : rb.toNat = i.val) (ha : s.reg i = .int a)
    (hlt : a.toNat < Config.memSize) :
    execPeek ra rb s = .next ((s.setReg d (.int (byteWord (Memory.get s.mem a.toNat)))).advance 3) := by
  simp [execPeek, regCheck_ok hd, regCheck_ok hi, State.intOf_ok ha, State.memRead_ok hlt]

theorem execPeek_outOfRange (hd : ra.toNat = d.val) (hi : rb.toNat = i.val) (ha : s.reg i = .int a)
    (hge : Config.memSize ≤ a.toNat) : execPeek ra rb s = .next (s.raise ⟨.addressOutOfRange, a.toNat⟩) := by
  simp [execPeek, regCheck_ok hd, regCheck_ok hi, State.intOf_ok ha, State.memRead_error hge]

theorem indexFaults_peek (ra rb : Byte) (s : State) : IndexFaults (.peek ra rb) [ra, rb] s :=
  indexFaults_pair (exec_peek ra rb s)

/-- The kind of the address register is checked; the destination's never is. -/
theorem intFaults_peek (ra rb : Byte) (s : State) : IntFaults (.peek ra rb) [ra, rb] [rb] s := by
  refine intFaults_of_settle (exec_peek ra rb s) fun hgood => ?_
  obtain ⟨d, hd⟩ := hgood ra (by simp)
  obtain ⟨i, hi⟩ := hgood rb (by simp)
  simp only [regCheck_ok hd, regCheck_ok hi, except_ok_bind]
  exact intOf_reportsFirst hi fun _ => reportsFirst_nil

/-! ## POKE -/

theorem execPoke_outOfRange (hi : ra.toNat = i.val) (hj : rb.toNat = j.val) (hv : s.reg i = .int v)
    (ha : s.reg j = .int a) (hge : Config.memSize ≤ a.toNat) :
    execPoke ra rb s = .next (s.raise ⟨.addressOutOfRange, a.toNat⟩) := by
  simp [execPoke, regCheck_ok hi, regCheck_ok hj, State.intOf_ok hv, State.intOf_ok ha, State.memWrite_error hge]

theorem indexFaults_poke (ra rb : Byte) (s : State) : IndexFaults (.poke ra rb) [ra, rb] s :=
  indexFaults_pair (exec_poke ra rb s)

theorem intFaults_poke (ra rb : Byte) (s : State) : IntFaults (.poke ra rb) [ra, rb] [ra, rb] s := by
  refine intFaults_of_settle (exec_poke ra rb s) fun hgood => ?_
  obtain ⟨i, hi⟩ := hgood ra (by simp)
  obtain ⟨j, hj⟩ := hgood rb (by simp)
  simp only [regCheck_ok hi, regCheck_ok hj, except_ok_bind]
  exact intOf_reportsFirst hi fun _ => intOf_reportsFirst hj fun _ => reportsFirst_nil

/-! ## MEMCPY -/

theorem exec_memcpy (ra rb rc : Byte) (s : State) : exec (.memcpy ra rb rc) s = execMemcpy ra rb rc s := rfl

/-- A MEMCPY whose index and kind checks pass is left with its two range checks, the destination's first. -/
theorem execMemcpy_of_operands (hi : ra.toNat = i.val) (hj : rb.toNat = j.val) (hk : rc.toNat = k.val)
    (hw : s.reg i = .int w) (ha : s.reg j = .int a) (hn : s.reg k = .int n) :
    execMemcpy ra rb rc s = settle s do
      rangeCheck w n
      rangeCheck a n
      return (s.setMem (Memory.copyUp s.mem w.toNat a.toNat n.toNat)).advance 4 := by
  simp only [execMemcpy, regCheck_ok hi, regCheck_ok hj, regCheck_ok hk, State.intOf_ok hw, State.intOf_ok ha,
    State.intOf_ok hn, except_ok_bind]

theorem indexFaults_memcpy (ra rb rc : Byte) (s : State) : IndexFaults (.memcpy ra rb rc) [ra, rb, rc] s :=
  indexFaults_of_settle (exec_memcpy ra rb rc s) <|
    regCheck_reportsFirst fun _ => regCheck_reportsFirst fun _ => regCheck_reportsFirst fun _ => reportsFirst_nil

theorem intFaults_memcpy (ra rb rc : Byte) (s : State) : IntFaults (.memcpy ra rb rc) [ra, rb, rc] [ra, rb, rc] s := by
  refine intFaults_of_settle (exec_memcpy ra rb rc s) fun hgood => ?_
  obtain ⟨i, hi⟩ := hgood ra (by simp)
  obtain ⟨j, hj⟩ := hgood rb (by simp)
  obtain ⟨k, hk⟩ := hgood rc (by simp)
  simp only [regCheck_ok hi, regCheck_ok hj, regCheck_ok hk, except_ok_bind]
  exact intOf_reportsFirst hi fun _ => intOf_reportsFirst hj fun _ => intOf_reportsFirst hk fun _ => reportsFirst_nil

end Instructions

/-- Settles O35. -/
theorem movCopiesTheValue : Obligations.MovCopiesTheValue := by
  intro ra rb s
  exact ⟨encodedAs_of_encode rfl rfl, fun d i hd hi => (exec_mov ra rb s).trans (execMov_ok hd hi),
    indexFaults_mov ra rb s⟩

/-- Settles O36. The word read is the only one of the byte's value. -/
theorem peekReadsTheByte : Obligations.PeekReadsTheByte := by
  intro ra rb s
  refine ⟨encodedAs_of_encode rfl rfl, fun d i a hd hi ha => ⟨fun v hlt hv => ?_, fun hge => ?_⟩,
    indexFaults_peek ra rb s, intFaults_peek ra rb s⟩
  · obtain rfl : v = byteWord (Memory.get s.mem a.toNat) := BitVec.eq_of_toNat_eq (hv.trans (byteWord_toNat _).symm)
    exact (exec_peek ra rb s).trans (execPeek_ok hd hi ha hlt)
  · exact (exec_peek ra rb s).trans (execPeek_outOfRange hd hi ha hge)

/-- Settles O37. -/
theorem pokeWritesTheByte : Obligations.PokeWritesTheByte := by
  intro ra rb s
  refine ⟨encodedAs_of_encode rfl rfl, fun i j v a hi hj hv ha => ⟨fun hlt => ?_, fun hge => ?_⟩,
    indexFaults_poke ra rb s, intFaults_poke ra rb s⟩
  · refine ⟨_, (exec_poke ra rb s).trans (execPoke_ok hi hj hv ha hlt), ?_, fun x hx => ?_⟩
    · rw [State.setMem_mem, Memory.get_set, if_pos rfl, lowByte_toNat]
    · rw [State.setMem_mem, Memory.get_set, if_neg hx.symm]
  · exact (exec_poke ra rb s).trans (execPoke_outOfRange hi hj hv ha hge)

/-- Settles O38. Past the operand checks only the two range checks are left; the bytes are those of the ascending loop. -/
theorem memcpyCopiesAscending : Obligations.MemcpyCopiesAscending := by
  intro ra rb rc s
  refine ⟨encodedAs_of_encode rfl rfl, fun i j k d a n hi hj hk hd ha hn => ?_,
    indexFaults_memcpy ra rb rc s, intFaults_memcpy ra rb rc s⟩
  have hrun := (exec_memcpy ra rb rc s).trans (execMemcpy_of_operands hi hj hk hd ha hn)
  refine ⟨fun hfit => ?completes, fun hpos hbad => ?badDestination, fun hpos hfit hbad => ?badSource⟩
  case completes =>
    have hdest : rangeCheck d n = .ok () := rangeCheck_eq_ok.mpr (hfit.imp_right And.left)
    have hsource : rangeCheck a n = .ok () := rangeCheck_eq_ok.mpr (hfit.imp_right And.right)
    rw [hdest, hsource] at hrun
    refine ⟨_, hrun, fun x hx => Memory.get_copyUp_outside _ _ _ _ _ hx, fun hplain x hx => ?_,
      fun hlt _ x hx => Memory.get_copyUp_of_lt hlt hx⟩
    rcases hplain with hle | hdisjoint
    · exact Memory.get_copyUp_of_le hle hx
    · exact Memory.get_copyUp_of_disjoint hdisjoint hx
  case badDestination =>
    rw [rangeCheck_error hpos hbad] at hrun
    exact hrun
  case badSource =>
    have hdest : rangeCheck d n = .ok () := rangeCheck_eq_ok.mpr (.inr hfit)
    rw [hdest, rangeCheck_error hpos hbad] at hrun
    exact hrun

end Sys2Proof.Machine
end

/-! PROOF. PUSH, POP, CALL and RET (`49_stack_call.md`), under any STACK_DEPTH where it is looked at, and CALL with RET as a
pair. -/

section
namespace Sys2Proof.Machine

section Instructions

variable {ra : Byte} {s : State} {i d : Fin Config.nreg} {v w : Word} {depth n : Nat}

/-! ## The stack -/

theorem State.push_full (w : Word) (h : s.sp = depth) : s.push depth w = .error ⟨.stackOverflow, 0⟩ :=
  if_neg h.not_lt

/-- A pop of a cell that is there. -/
theorem State.pop_cell (hsp : s.sp = n + 1) (hw : s.stack[n]? = some w) : s.pop = .ok (w, { s with sp := n }) := by
  rw [State.pop_eq_ok, hsp, Nat.add_sub_cancel, List.getD_eq_getElem?_getD, hw]
  exact ⟨Nat.succ_pos n, rfl⟩

theorem State.pop_empty (h : s.sp = 0) : s.pop = .error ⟨.stackUnderflow, 0⟩ :=
  if_neg h.not_gt

/-! ## PUSH -/

theorem execUnder_push (p : Params) (ra : Byte) (s : State) : execUnder p (.push ra) s = pushUnder p.stackDepth ra s := rfl

theorem pushUnder_full (hi : ra.toNat = i.val) (hv : s.reg i = .int v) (hfull : s.sp = depth) :
    pushUnder depth ra s = .next (s.raise ⟨.stackOverflow, 0⟩) := by
  simp [pushUnder, regCheck_ok hi, State.intOf_ok hv, State.push_full v hfull]

/-- The kind check of PUSH comes before the overflow. -/
theorem faults_push (ra : Byte) (s : State) : IndexFaults (.push ra) [ra] s ∧ IntFaults (.push ra) [ra] [ra] s := by
  refine ⟨indexFaults_of_settle (exec_push ra s) (regCheck_reportsFirst fun _ => reportsFirst_nil),
    intFaults_of_settle (exec_push ra s) fun hgood => ?_⟩
  obtain ⟨i, hi⟩ := hgood ra (by simp)
  rw [regCheck_ok hi, except_ok_bind]
  exact intOf_reportsFirst hi fun _ => reportsFirst_nil

/-! ## POP -/

theorem execPop_cell (hd : ra.toNat = d.val) (hsp : s.sp = n + 1) (hw : s.stack[n]? = some w) :
    execPop ra s = .next ((({ s with sp := n } : State).setReg d (.int w)).advance 2) := by
  simp [execPop, regCheck_ok hd, State.pop_cell hsp hw]

theorem execPop_empty (hd : ra.toNat = d.val) (hsp : s.sp = 0) :
    execPop ra s = .next (s.raise ⟨.stackUnderflow, 0⟩) := by
  simp [execPop, regCheck_ok hd, State.pop_empty hsp]

theorem indexFaults_pop (ra : Byte) (s : State) : IndexFaults (.pop ra) [ra] s :=
  indexFaults_of_settle (exec_pop ra s) (regCheck_reportsFirst fun _ => reportsFirst_nil)

/-! ## CALL -/

theorem execUnder_call (p : Params) (target : Half) (s : State) :
    execUnder p (.call target) s = callUnder p.stackDepth target s := rfl

theorem exec_call (target : Half) (s : State) : exec (.call target) s = callUnder Config.stackDepth target s := rfl

theorem callUnder_ok (target : Half) (hsp : s.sp < depth) : callUnder depth target s = .next { s with
    stack := s.stack.set s.sp (s.pc + 3), sp := s.sp + 1, pc := targetWord target } := by
  simp [callUnder, State.push_eq_ok.mpr ⟨hsp, rfl⟩, State.setPc]

theorem callUnder_full (target : Half) (hfull : s.sp = depth) :
    callUnder depth target s = .next (s.raise ⟨.stackOverflow, 0⟩) := by
  simp only [callUnder, State.push_full (s.pc + 3) hfull, except_error_bind, settle_error]

/-! ## RET -/

theorem exec_ret (s : State) : exec .ret s = execRet s := rfl

theorem execRet_cell (hsp : s.sp = n + 1) (hw : s.stack[n]? = some w) :
    execRet s = .next { s with sp := n, pc := w } := by
  simp [execRet, State.pop_cell hsp hw, State.setPc]

theorem execRet_empty (hsp : s.sp = 0) : execRet s = .next (s.raise ⟨.stackUnderflow, 0⟩) := by
  simp [execRet, State.pop_empty hsp]

end Instructions

/-- Settles O39. The meaning under the default STACK_DEPTH is that under any, at 1024. -/
theorem pushStoresThenIncrements : Obligations.PushStoresThenIncrements := by
  intro ra s
  refine ⟨encodedAs_of_encode rfl rfl, fun i v hi hv => ⟨fun hroom => ?_, fun hfull => ?_, fun p => ⟨fun hroom => ?_,
    fun hfull => ?_⟩⟩, faults_push ra s⟩
  · exact (exec_push ra s).trans (pushUnder_ok hi hv hroom)
  · exact (exec_push ra s).trans (pushUnder_full hi hv hfull)
  · exact (execUnder_push p ra s).trans (pushUnder_ok hi hv hroom)
  · exact (execUnder_push p ra s).trans (pushUnder_full hi hv hfull)

/-- Settles O40. -/
theorem popDecrementsThenReads : Obligations.PopDecrementsThenReads := by
  intro ra s
  exact ⟨encodedAs_of_encode rfl rfl,
    fun d hd => ⟨fun n w hsp hw => (exec_pop ra s).trans (execPop_cell hd hsp hw),
      fun hsp => (exec_pop ra s).trans (execPop_empty hd hsp)⟩,
    indexFaults_pop ra s⟩

/-- Settles O41. A pc below the bound is far from the wrap of a word, so the sum is exact. -/
theorem callPushesTheReturnAddress : Obligations.CallPushesTheReturnAddress := by
  intro lo hi target s a htarget ha
  obtain rfl := eq_targetWord_of_toNat ha
  refine ⟨encodedAs_of_target rfl rfl htarget, fun hroom => ?_, fun hfull => ?_, fun p => ⟨fun hroom => ?_,
    fun hfull => ?_⟩, fun hpc => ?_⟩
  · exact (exec_call target s).trans (callUnder_ok target hroom)
  · exact (exec_call target s).trans (callUnder_full target hfull)
  · exact (execUnder_call p target s).trans (callUnder_ok target hroom)
  · exact (execUnder_call p target s).trans (callUnder_full target hfull)
  · bv_omega

/-- Settles O42. -/
theorem retJumpsToThePoppedValue : Obligations.RetJumpsToThePoppedValue := by
  refine ⟨encodes_of_encode rfl rfl, fun s => ⟨fun n w hsp hw => ?_, fun hsp => ?_⟩⟩
  · exact (exec_ret s).trans (execRet_cell hsp hw)
  · exact (exec_ret s).trans (execRet_empty hsp)

/-- Settles O57. RET pops the cell CALL wrote, which is there because the pointer was below the number of cells. -/
theorem callThenRetResumesAfterTheCall : Obligations.CallThenRetResumesAfterTheCall := by
  intro s target hroom hcells
  refine ⟨_, (exec_call target s).trans (callUnder_ok target hroom), fun u hstack hsp => ?_⟩
  have hcell : u.stack[s.sp]? = some (s.pc + 3) := by
    rw [hstack]
    exact List.getElem?_set_self (hcells ▸ hroom)
  exact (exec_ret u).trans (execRet_cell hsp hcell)

end Sys2Proof.Machine
end

/-! PROOF. Faults are precise (`60_exceptions.md` R203): no instruction raises UnrecognizedOpcode, which is the unknown
opcode's own, so the counter moves in a faulting step exactly when that is the cause. -/

section
namespace Sys2Proof.Machine

/-! ## What a sequence of checks can raise -/

/-- The checks `x` raise no UnrecognizedOpcode, and what they answer satisfies `Q`. `settle_faultsByCheck` ties it to the
meanings. -/
def ChecksThen {α : Type} (Q : α → Prop) : Except Raise α → Prop
  | .ok a => Q a
  | .error r => r.cause ≠ .unrecognizedOpcode

section Checks

variable {α β : Type} {P : α → Prop} {Q : β → Prop}

theorem ChecksThen.bind {x : Except Raise α} {f : α → Except Raise β} (hx : ChecksThen P x)
    (hf : ∀ a, P a → ChecksThen Q (f a)) : ChecksThen Q (x >>= f) := by
  cases x with
  | ok a => exact hf a hx
  | error r => exact hx

/-- A check of which only the cause matters, in front of others. -/
theorem ChecksThen.seq {x : Except Raise α} {f : α → Except Raise β} (hx : ChecksThen (fun _ => True) x)
    (hf : ∀ a, ChecksThen Q (f a)) : ChecksThen Q (x >>= f) :=
  hx.bind fun a _ => hf a

variable (s : State)

theorem regCheck_checks (b : Byte) : ChecksThen (fun _ => True) (regCheck b) := by
  unfold regCheck
  split <;> simp [ChecksThen]

theorem State.intOf_checks (i : Fin Config.nreg) : ChecksThen (fun _ => True) (s.intOf i) := by
  unfold State.intOf
  split <;> simp [ChecksThen]

theorem State.textOf_checks (i : Fin Config.nreg) : ChecksThen (fun _ => True) (s.textOf i) := by
  unfold State.textOf
  split <;> simp [ChecksThen]

theorem divide_checks (a b : Word) : ChecksThen (fun _ => True) (divide a b) := by
  unfold divide
  split <;> simp [ChecksThen]

theorem State.memRead_checks (a : Word) : ChecksThen (fun _ => True) (s.memRead a) := by
  rcases s.memRead_cases a with ⟨-, e⟩ | ⟨-, e⟩ <;> simp [e, ChecksThen]

theorem State.memWrite_checks (a : Word) (b : Byte) : ChecksThen (fun t => t.status = s.status) (s.memWrite a b) := by
  rcases s.memWrite_cases a b with ⟨-, e⟩ | ⟨-, e⟩ <;> simp [e, ChecksThen]

theorem rangeCheck_checks (a n : Word) : ChecksThen (fun _ => True) (rangeCheck a n) := by
  rcases rangeCheck_cases a n with ⟨-, e⟩ | ⟨-, -, e⟩ <;> simp [e, ChecksThen]

theorem State.push_checks (depth : Nat) (w : Word) : ChecksThen (fun t => t.status = s.status) (s.push depth w) := by
  rcases s.push_cases depth w with ⟨-, e⟩ | ⟨-, e⟩ <;> simp [e, ChecksThen]

theorem State.pop_checks : ChecksThen (fun p : Word × State => p.2.status = s.status) s.pop := by
  rcases s.pop_cases with ⟨-, e⟩ | ⟨-, e⟩ <;> simp [e, ChecksThen]

end Checks

/-! ## The instructions -/

/-- The answer is a next state that, if it is Faulted, is the fault entry from `s` with a cause other than
UnrecognizedOpcode. -/
def Outcome.FaultsByCheck (s : State) (o : Outcome) : Prop :=
  ∃ t, o = .next t ∧ (t.status = .faulted → ∃ r : Raise, r.cause ≠ .unrecognizedOpcode ∧ t = s.raise r)

theorem faultsByCheck_of_status {s t : State} (h : t.status ≠ .faulted) : Outcome.FaultsByCheck s (.next t) :=
  ⟨t, rfl, fun hfault => absurd hfault h⟩

section Families

variable {s : State} (hs : s.status ≠ .faulted)

include hs

/-- An instruction that ends in `settle`, from a state that is not Faulted. -/
theorem settle_faultsByCheck {x : Except Raise State} (h : ChecksThen (fun t => t.status = s.status) x) :
    Outcome.FaultsByCheck s (settle s x) := by
  cases x with
  | ok t => exact faultsByCheck_of_status (h ▸ hs)
  | error r => exact ⟨_, rfl, fun _ => ⟨r, h, rfl⟩⟩

theorem storeValue_faultsByCheck (ra : Byte) (v : Value) (n : Nat) : Outcome.FaultsByCheck s (storeValue ra v n s) :=
  settle_faultsByCheck hs <| (regCheck_checks ra).seq fun _ => rfl

theorem testReg_faultsByCheck (f : Value → Bool) (ra : Byte) (n : Nat) : Outcome.FaultsByCheck s (testReg f ra n s) :=
  settle_faultsByCheck hs <| (regCheck_checks ra).seq fun _ => rfl

theorem binaryOp_faultsByCheck {f : Word → Word → Except Raise Word} (ra rb rc : Byte)
    (hf : ∀ a b, ChecksThen (fun _ => True) (f a b)) : Outcome.FaultsByCheck s (binaryOp f ra rb rc s) :=
  settle_faultsByCheck hs <| (regCheck_checks ra).seq fun _ => (regCheck_checks rb).seq fun _ =>
    (regCheck_checks rc).seq fun _ => (s.intOf_checks _).seq fun _ => (s.intOf_checks _).seq fun _ =>
      (hf _ _).seq fun _ => rfl

theorem intOperand_faultsByCheck {f : Fin Config.nreg → Word → State} (ra : Byte)
    (hf : ∀ i v, (f i v).status = s.status) : Outcome.FaultsByCheck s (intOperand f ra s) :=
  settle_faultsByCheck hs <| (regCheck_checks ra).seq fun _ => (s.intOf_checks _).seq fun _ => hf _ _

theorem textOperand_faultsByCheck {f : Fin Config.nreg → List Byte → State} (ra : Byte)
    (hf : ∀ i t, (f i t).status = s.status) : Outcome.FaultsByCheck s (textOperand f ra s) :=
  settle_faultsByCheck hs <| (regCheck_checks ra).seq fun _ => (s.textOf_checks _).seq fun _ => hf _ _

theorem branch_faultsByCheck (taken : Bool) (target : Half) : Outcome.FaultsByCheck s (branch taken target s) := by
  cases taken with
  | true => exact faultsByCheck_of_status hs
  | false => exact faultsByCheck_of_status hs

/-- An instruction that ends Faulted raised one of its own checks, and none of them is the unknown opcode's. -/
theorem exec_faultsByCheck (i : Instr) : Outcome.FaultsByCheck s (exec i s) := by
  cases i with
  | exit => exact faultsByCheck_of_status (by simp)
  | nop => exact faultsByCheck_of_status hs
  | intStore | stringStore => exact storeValue_faultsByCheck hs _ _ _
  | intPrint ra | intToString ra => exact intOperand_faultsByCheck hs ra fun _ _ => rfl
  | stringPrint ra | stringToInt ra | system ra => exact textOperand_faultsByCheck hs ra fun _ _ => rfl
  | intRandom ra => exact settle_faultsByCheck hs <| (regCheck_checks ra).seq fun _ => rfl
  | div ra rb rc => exact binaryOp_faultsByCheck hs ra rb rc divide_checks
  | add ra rb rc | sub ra rb rc | mul ra rb rc | xor ra rb rc | and ra rb rc | or ra rb rc =>
    exact binaryOp_faultsByCheck hs ra rb rc fun _ _ => trivial
  | inc ra | dec ra => exact intOperand_faultsByCheck hs ra fun _ _ => rfl
  | concat ra rb rc =>
    exact settle_faultsByCheck hs <| (regCheck_checks ra).seq fun _ => (regCheck_checks rb).seq fun _ =>
      (regCheck_checks rc).seq fun _ => (s.textOf_checks _).seq fun _ => (s.textOf_checks _).seq fun _ => rfl
  | jmp | jmpz | jmpnz => exact branch_faultsByCheck hs _ _
  | cmpImm ra imm => exact testReg_faultsByCheck hs (fun v => equalFlag v (.int (immWord imm))) ra 4
  | cmpStr ra text => exact testReg_faultsByCheck hs (fun v => equalFlag v (.text text)) ra (4 + text.length)
  | isString | isInteger => exact testReg_faultsByCheck hs _ _ _
  | cmpReg ra rb | mov ra rb =>
    exact settle_faultsByCheck hs <| (regCheck_checks ra).seq fun _ => (regCheck_checks rb).seq fun _ => rfl
  | peek ra rb =>
    exact settle_faultsByCheck hs <| (regCheck_checks ra).seq fun _ => (regCheck_checks rb).seq fun _ =>
      (s.intOf_checks _).seq fun _ => (s.memRead_checks _).seq fun _ => rfl
  | poke ra rb =>
    exact settle_faultsByCheck hs <| (regCheck_checks ra).seq fun _ => (regCheck_checks rb).seq fun _ =>
      (s.intOf_checks _).seq fun _ => (s.intOf_checks _).seq fun _ => (s.memWrite_checks _ _).bind fun _ h => h
  | memcpy ra rb rc =>
    exact settle_faultsByCheck hs <| (regCheck_checks ra).seq fun _ => (regCheck_checks rb).seq fun _ =>
      (regCheck_checks rc).seq fun _ => (s.intOf_checks _).seq fun _ => (s.intOf_checks _).seq fun _ =>
        (s.intOf_checks _).seq fun _ => (rangeCheck_checks _ _).seq fun _ => (rangeCheck_checks _ _).seq fun _ => rfl
  | push ra =>
    exact settle_faultsByCheck hs <| (regCheck_checks ra).seq fun _ => (s.intOf_checks _).seq fun _ =>
      (s.push_checks _ _).bind fun _ h => h
  | pop ra => exact settle_faultsByCheck hs <| (regCheck_checks ra).seq fun _ => s.pop_checks.bind fun _ h => h
  | ret => exact settle_faultsByCheck hs <| s.pop_checks.bind fun _ h => h
  | call target => exact settle_faultsByCheck hs <| (s.push_checks _ _).bind fun _ h => h

end Families

/-! ## The step -/

theorem State.wrapPc_unk (s : State) : s.wrapPc.unk = s.unk := by
  obtain ⟨a, e⟩ := s.wrapPc_eq
  rw [e]

/-- A rejection that ends Faulted is the fault entry, with the count one higher for UnrecognizedOpcode only. -/
theorem rejected_faulted {s : State} {r : Reject} (hs : s.status ≠ .faulted) (h : (rejected s r).status = .faulted) :
    (∃ c : Raise, c.cause ≠ .unrecognizedOpcode ∧ rejected s r = s.raise c) ∨
    ∃ op, rejected s r = ({ s with unk := s.unk + 1 } : State).raise ⟨.unrecognizedOpcode, op⟩ := by
  cases r with
  | truncated k => exact .inl ⟨⟨.addressOutOfRange, s.pc.toNat + k⟩, by simp, rfl⟩
  | unknownOpcode op =>
    rcases unknownOpcode_cases Config.unknownLimit op s with ⟨l, -, -, e⟩ | ⟨-, e⟩
    · exact .inr ⟨op.toNat, e⟩
    · exact absurd ((congrArg State.status e).symm.trans h) hs

/-- A step that ends Faulted is the fault entry from the wrapped state, with the count one higher for UnrecognizedOpcode
only. -/
theorem step_faulted {s t : State} (h : step s = .next t) (hfault : t.status = .faulted) :
    (∃ r : Raise, r.cause ≠ .unrecognizedOpcode ∧ t = s.wrapPc.raise r) ∨
    ∃ op, t = ({ s.wrapPc with unk := s.wrapPc.unk + 1 } : State).raise ⟨.unrecognizedOpcode, op⟩ := by
  obtain ⟨hs, ⟨i, hf, -⟩ | ⟨r, -, rfl⟩⟩ := step_next_cases h
  all_goals have hwrap : s.wrapPc.status ≠ .faulted := by simp [hs]
  · obtain ⟨u, hu, hcheck⟩ := exec_faultsByCheck hwrap i
    obtain rfl : u = t := Host.Outcome.next.inj (hu.symm.trans ((step_of_fetch_ok hs hf).symm.trans h))
    exact .inl (hcheck hfault)
  · exact rejected_faulted hwrap hfault

/-- Settles O51. -/
theorem faultsArePrecise : Obligations.FaultsArePrecise := by
  intro s t h hfault
  rcases step_faulted h hfault with ⟨r, hr, rfl⟩ | ⟨op, rfl⟩
  · refine ⟨r.cause, r.info, ?_⟩
    rw [if_neg hr, ← s.wrapPc_unk]
    rfl
  · refine ⟨.unrecognizedOpcode, op, ?_⟩
    rw [if_pos rfl, ← s.wrapPc_unk]
    rfl

end Sys2Proof.Machine
end

/-! PROOF. The state after reset and after a load: which images are accepted, the reset values, and the invariant. -/

section
namespace Sys2Proof.Machine

/-- Settles O2. A legal image under the default configuration is accepted, and only a legal one is. -/
theorem bootAcceptsExactlyTheLegalImages : Obligations.BootAcceptsExactlyTheLegalImages := by
  intro image
  have haccepts (h : 1 ≤ image.length ∧ image.length ≤ 65536) : ∃ t, boot Config.Embedding.default image = .next t :=
    ⟨_, bootUnder_of_legal Params.default h.1 h.2⟩
  rcases bootUnder_cases Params.default Config.Embedding.default image with ⟨hpos, hle, -, -⟩ | ⟨r, hr⟩
  · exact ⟨⟨fun _ => ⟨hpos, hle⟩, haccepts⟩, fun hillegal => absurd ⟨hpos, hle⟩ hillegal⟩
  · have hnone : ¬ ∃ t, boot Config.Embedding.default image = .next t := fun ⟨t, ht⟩ => by cases hr.symm.trans ht
    exact ⟨⟨fun haccepted => absurd haccepted hnone, haccepts⟩, fun _ => ⟨r, hr⟩⟩

/-- Settles O4. The memory list is empty, so every address reads as an unlisted one. -/
theorem resetStateHoldsTheResetValues : Obligations.ResetStateHoldsTheResetValues :=
  ⟨State.reset_reg, rfl, rfl, Memory.get_nil, rfl, List.length_replicate, rfl, rfl, rfl, rfl⟩

/-- Settles O52. -/
theorem invariantHoldsAtReset : Obligations.InvariantHoldsAtReset :=
  inv_of_unfaulted (by simp [State.reset]) rfl State.reset_mem_wf List.length_replicate (Nat.zero_le _)
    fun _ _ => Nat.zero_le _

/-- Settles O53. -/
theorem invariantHoldsAfterBoot : Obligations.InvariantHoldsAfterBoot := by
  intro e image t h
  exact boot_inv h

end Sys2Proof.Machine
end
